-- ==== Sys2Proof/Word.lean ====
section
/-! DEFINITION. The word types of BTCODEC (R7, R16, R50): every value is an unsigned bit vector. -/

namespace Sys2Proof

/-- A unit: one cell of a buffer, 8 bits, read as a number 0..255 (R7). -/
abbrev Byte := BitVec 8

/-- A command word and a register of the region: 32 bits (R32, R50). -/
abbrev Word := BitVec 32

/-- A quintet: a 5-bit unsigned value 0..31, the native unit of Bech32 data (`00_scope.md` section 7). -/
abbrev Quintet := BitVec 5

/-- A value of the polymod register: `CHK_WIDTH` = 30 bits (R4, R16). -/
abbrev Chk := BitVec 30

end Sys2Proof
end

