-- ==== Sys2Proof/Config.lean ====
section
/-! DEFINITION. The implementation parameters: the ones the source fixes (R4) and the OPEN ones, as fields
of a configuration (R5, `92_eei_decisions.md` section 6). Their defaults stand in Machine/Params.lean. -/

namespace Sys2Proof

/-- `CV_MAX`: the longest input, in units, of B256TO58 and of B58TO256 (R4). -/
abbrev cvMax : Nat := 8192

/-- `CHK_SEED`: the value the polymod register is seeded to (R4). -/
abbrev chkSeed : Chk := 1

/-- `CONST_BECH32`: the final XOR value of the original scheme (R4). -/
abbrev constBech32 : Chk := 0x00000001

/-- `CONST_BECH32M`: the final XOR value of the "m" variant (R4). -/
abbrev constBech32m : Chk := 0x2bc830a3

/-- `CSUM_LEN`: quintets in a checksum, and zero placeholders absorbed before it (R4). -/
abbrev csumLen : Nat := 6

/-- `CVOUT_MAX`: the longest output of B256TO58 on `cvMax` input units (R6, R88). -/
abbrev cvOutMax : Nat := 11188

/-- The OPEN parameters (R5): "a model takes it as an argument of its configuration". `BASE` is
left out: every rule speaks of offsets from it (R40, log entry 5). -/
structure Config where
  /-- `BUF_CAP`: capacity in cells of IBUF and of OBUF. -/
  bufCap : Nat
  /-- `RG8_MAX`: longest input, in bytes, of RG8TO5. -/
  rg8Max : Nat
  /-- `RG5_MAX`: longest input, in quintets, of RG5TO8. -/
  rg5Max : Nat
  /-- `RG_LEFTOVER_LIMIT`: RG5TO8 fails with E_EXCESS at this many leftover bits (`90_conflicts.md` C1). -/
  leftoverLimit : Nat
  /-- `GEN[0..4]`: the generator constants; entry `i` goes with bit `i` of `top` (R122). -/
  gen : Vector Chk 5
  deriving DecidableEq, Repr

end Sys2Proof
end

