-- ==== Sys2Proof/Syntax.lean ====
section
/-! DEFINITION. The syntax of everything the host can say to the block: the 14 commands (R53), the
accesses of the bus port and the reset input (R33, R37, R181), and the lines of the spec's assembler
(R58, R59). -/

namespace Sys2Proof

/-- The checksum variant: "a closed tagged choice carrying an associated checksum constant"
(R20, `00_scope.md` section 7). The operand of PMSUM (R51). -/
inductive Variant where
  | bech32
  | bech32m
  deriving DecidableEq, Repr

/-- The four command families (R1). -/
inductive Family where
  | buffer
  | baseConverter
  | bitRegrouper
  | polymod
  deriving DecidableEq, Repr

/-- The 14 commands of BTCODEC-1 with their operands (R51, R53). -/
inductive Instr where
  /-- NOP (R70). -/
  | nop
  /-- ICLR, clear the input buffer (R71). -/
  | iclr
  /-- PUSH u, append one unit to the input buffer (R72). -/
  | push (u : Byte)
  /-- MVOI, copy the output buffer to the input buffer (R73). -/
  | mvoi
  /-- B256TO58, convert base 256 to base 58 (R85). -/
  | b256to58
  /-- B58TO256, convert base 58 to base 256 (R86). -/
  | b58to256
  /-- RG8TO5, regroup bytes to quintets with padding (R102). -/
  | rg8to5
  /-- RG5TO8, regroup quintets to bytes without padding (R104). -/
  | rg5to8
  /-- PMINIT, seed the register (R127). -/
  | pminit
  /-- PMSTEP v, absorb one quintet given in the command word (R128). -/
  | pmstep (v : Quintet)
  /-- PMABS, absorb the quintets in IBUF (R129). -/
  | pmabs
  /-- PMHRP, absorb the expansion of the bytes in IBUF (R130). -/
  | pmhrp
  /-- PMSUM m, finish a checksum creation (R131). -/
  | pmsum (m : Variant)
  /-- PMVFY, finish a checksum verification (R132). -/
  | pmvfy
  deriving DecidableEq, Repr

/-- The 14 mnemonics: the rows of the opcode map (R53). -/
inductive Op where
  | nop | iclr | push | mvoi
  | b256to58 | b58to256
  | rg8to5 | rg5to8
  | pminit | pmstep | pmabs | pmhrp | pmsum | pmvfy
  deriving DecidableEq, Repr

/-- The mnemonic of a command. -/
def Instr.op : Instr → Op
  | .nop => .nop
  | .iclr => .iclr
  | .push _ => .push
  | .mvoi => .mvoi
  | .b256to58 => .b256to58
  | .b58to256 => .b58to256
  | .rg8to5 => .rg8to5
  | .rg5to8 => .rg5to8
  | .pminit => .pminit
  | .pmstep _ => .pmstep
  | .pmabs => .pmabs
  | .pmhrp => .pmhrp
  | .pmsum _ => .pmsum
  | .pmvfy => .pmvfy

/-- The family of a command (R1). -/
def Op.family : Op → Family
  | .nop | .iclr | .push | .mvoi => .buffer
  | .b256to58 | .b58to256 => .baseConverter
  | .rg8to5 | .rg5to8 => .bitRegrouper
  | .pminit | .pmstep | .pmabs | .pmhrp | .pmsum | .pmvfy => .polymod

/-- The width of a host access. Only whole 32-bit words can be presented to the block (R33). -/
inductive AccessWidth where
  | w8
  | w16
  | w32
  | w64
  deriving DecidableEq, Repr

/-- One thing the host does (R196): a register write, a register read, or a pulse of the reset
input. `off` is the byte offset from `BASE`; `v` is the 32-bit write data, which only a whole-word
access uses. -/
inductive HostEvent where
  | write (width : AccessWidth) (off : Nat) (v : Word)
  | read (width : AccessWidth) (off : Nat)
  | reset
  deriving DecidableEq, Repr

/-- The operand of an assembler line: a numeral, or for PMSUM the name of a variant (R58). -/
inductive Operand where
  | num (n : Nat)
  | variant (m : Variant)
  deriving DecidableEq, Repr

/-- The names the directives RD and EXPECT take (R59). -/
inductive RegName where
  | cmd
  | status
  | ilen
  | olen
  | chk
  | ibuf (i : Nat)
  | obuf (i : Nat)
  deriving DecidableEq, Repr

/-- One line of a program's textual form: a command, a raw word, a pseudo-command or a host-side
directive (R58, R59). A line may also be empty or a comment. -/
inductive AsmLine where
  | blank
  | command (op : Op) (operand : Option Operand)
  | word (n : Nat)
  | load (us : List Nat)
  | loads (text : List Char)
  | pmzero6
  | rd (r : RegName)
  | expect (r : RegName) (n : Nat)
  deriving DecidableEq, Repr

end Sys2Proof
end

