-- ==== Sys2Proof/WellFormed.lean ====
section
/-! DEFINITION. What makes a configuration (R6), a host access (R33, R196) and an assembler line (R58)
well formed. An `Instr` carries its operand in its type (a unit of 8 bits, a quintet of 5, a variant of
two), so every `Instr` is well formed; the check on operands stands where numerals become operands. -/

namespace Sys2Proof

/-- The constraints between the parameters that a configuration must meet (R6), with the bound
`BUF_CAP ≤ 16384` of `92_eei_decisions.md` section 6 (the windows hold 16384 registers each). That every
`GEN[i]` is below 2^30 is in its type. -/
def Config.wf (c : Config) : Bool :=
  decide (cvMax ≤ c.bufCap) && decide (c.rg8Max ≤ c.bufCap) && decide (c.rg5Max ≤ c.bufCap)
    && decide (cvOutMax ≤ c.bufCap) && decide ((8 * c.rg8Max + 4) / 5 ≤ c.bufCap)
    && decide ((8 * c.rg8Max + 4) / 5 ≤ c.rg5Max) && decide (c.rg8Max ≠ c.rg5Max)
    && decide (1 ≤ c.leftoverLimit) && decide (c.leftoverLimit ≤ 8) && decide (c.bufCap ≤ 16384)

/-- The bytes of the register region (R35). -/
abbrev regionBytes : Nat := 0x30000

/-- An access the block's port can carry: a whole, 4-byte-aligned, 32-bit word of the region (R33, R41). -/
def accessWf (width : AccessWidth) (off : Nat) : Bool :=
  decide (width = .w32) && decide (off % 4 = 0) && decide (off < regionBytes)

/-- A host event that has a meaning in the model (R196): any reset, and any access the port can carry. -/
def HostEvent.wf : HostEvent → Bool
  | .write width off _ => accessWf width off
  | .read width off => accessWf width off
  | .reset => true

/-- The operand each mnemonic takes, and its range: PUSH 0..255, PMSTEP 0..31, PMSUM 0, 1 or a name,
the others none (R51, R58: "`PUSH 256`, `PMSTEP 32`, `PMSUM 2` is an assembler error"). -/
def operandOk (op : Op) (operand : Option Operand) : Bool :=
  match op, operand with
  | .push, some (.num n) => decide (n < 256)
  | .push, _ => false
  | .pmstep, some (.num n) => decide (n < 32)
  | .pmstep, _ => false
  | .pmsum, some (.num n) => decide (n < 2)
  | .pmsum, some (.variant _) => true
  | .pmsum, none => false
  | _, none => true
  | _, some _ => false

/-- A directive names a register there is: a window has 16384 registers (R35). -/
def RegName.wf : RegName → Bool
  | .ibuf i => decide (i < 16384)
  | .obuf i => decide (i < 16384)
  | .cmd | .status | .ilen | .olen | .chk => true

/-- A line the assembler accepts (R58, R59). `LOADS` takes ASCII characters. -/
def AsmLine.wf : AsmLine → Bool
  | .blank => true
  | .command op operand => operandOk op operand
  | .word n => decide (n < 2 ^ 32)
  | .load us => us.all (fun n => decide (n < 256))
  | .loads text => text.all (fun c => decide (c.toNat < 128))
  | .pmzero6 => true
  | .rd r => r.wf
  | .expect r n => r.wf && decide (n < 2 ^ 32)

end Sys2Proof
end

