-- ==== Sys2Proof/Decode.lean ====
section
/-! DEFINITION. The command encoding: the fields of a command word (R50, R51), the decoder, total on
all 2^32 words (R54, R55), the encoder, and the opcode map as a table of match and mask (R53). -/

namespace Sys2Proof

/-- `op = W[7:0]` (R51). -/
def opField (w : Word) : Byte := w.extractLsb' 0 8

/-- `arg = W[15:8]` (R51). -/
def argField (w : Word) : Byte := w.extractLsb' 8 8

/-- `rsv = W[31:16]` (R51). -/
def rsvField (w : Word) : BitVec 16 := w.extractLsb' 16 16

/-- Why a word is illegal (R55). All three are the one fault E_OPC; the reason is not recorded. -/
inductive Illegal where
  /-- a non-zero `rsv` -/
  | reservedBits
  /-- one of the 242 unassigned values of `op` -/
  | unassignedOp
  /-- a non-zero bit of `arg` in a position the command does not use -/
  | unusedArgBits
  deriving DecidableEq, Repr

/-- What `decode` answers: "either a command with its operand or `illegal`" (R54). -/
inductive Decoded where
  | command (i : Instr)
  | illegal (why : Illegal)
  deriving DecidableEq, Repr

/-- A command that takes no operand requires `arg = 0` (R51). -/
def noOperand (arg : Byte) (i : Instr) : Decoded :=
  if arg = 0 then .command i else .illegal .unusedArgBits

/-- PMSTEP takes `v = arg[4:0]` and requires `arg[7:5] = 0` (R51). -/
def decodePmstep (arg : Byte) : Decoded :=
  if arg.extractLsb' 5 3 = 0 then .command (.pmstep (arg.extractLsb' 0 5)) else .illegal .unusedArgBits

/-- PMSUM takes `m = arg[0]`, 0 = BECH32 and 1 = BECH32M, and requires `arg[7:1] = 0` (R51). -/
def decodePmsum (arg : Byte) : Decoded :=
  if arg.extractLsb' 1 7 = 0 then .command (.pmsum (if arg.getLsbD 0 then .bech32m else .bech32))
  else .illegal .unusedArgBits

/-- The case on `op` of `decode` (R54). -/
def decodeFields (op arg : Byte) : Decoded :=
  match op with
  | 0x00#8 => noOperand arg .nop
  | 0x01#8 => noOperand arg .iclr
  | 0x02#8 => .command (.push arg)
  | 0x03#8 => noOperand arg .mvoi
  | 0x10#8 => noOperand arg .b256to58
  | 0x11#8 => noOperand arg .b58to256
  | 0x20#8 => noOperand arg .rg8to5
  | 0x21#8 => noOperand arg .rg5to8
  | 0x30#8 => noOperand arg .pminit
  | 0x31#8 => decodePmstep arg
  | 0x32#8 => noOperand arg .pmabs
  | 0x33#8 => noOperand arg .pmhrp
  | 0x34#8 => decodePmsum arg
  | 0x35#8 => noOperand arg .pmvfy
  | _ => .illegal .unassignedOp

/-- `decode(W)` (R54): total; `rsv` is checked first. -/
def decode (w : Word) : Decoded :=
  if rsvField w ≠ 0 then .illegal .reservedBits else decodeFields (opField w) (argField w)

/-- The opcode of each mnemonic (R53). -/
def Op.code : Op → Byte
  | .nop => 0x00
  | .iclr => 0x01
  | .push => 0x02
  | .mvoi => 0x03
  | .b256to58 => 0x10
  | .b58to256 => 0x11
  | .rg8to5 => 0x20
  | .rg5to8 => 0x21
  | .pminit => 0x30
  | .pmstep => 0x31
  | .pmabs => 0x32
  | .pmhrp => 0x33
  | .pmsum => 0x34
  | .pmvfy => 0x35

/-- The high nibble of `op` that groups a family (R53). -/
def Family.nibble : Family → BitVec 4
  | .buffer => 0x0
  | .baseConverter => 0x1
  | .bitRegrouper => 0x2
  | .polymod => 0x3

/-- The variant selector of PMSUM: 0 = BECH32, 1 = BECH32M (R51). -/
def Variant.selector : Variant → BitVec 1
  | .bech32 => 0
  | .bech32m => 1

/-- The `arg` field of a command; 0 for a command that takes no operand (R51). -/
def Instr.arg : Instr → Byte
  | .push u => u
  | .pmstep v => v.setWidth 8
  | .pmsum m => m.selector.setWidth 8
  | .nop | .iclr | .mvoi | .b256to58 | .b58to256 | .rg8to5 | .rg5to8 => 0
  | .pminit | .pmabs | .pmhrp | .pmvfy => 0

/-- `W = op | (arg << 8)` (R51). -/
def encodeFields (op arg : Byte) : Word := op.setWidth 32 ||| (arg.setWidth 32 <<< 8)

/-- The word that encodes a command (R51). -/
def encode (i : Instr) : Word := encodeFields i.op.code i.arg

/-- One row of the opcode map: `W` encodes the command of the row when `W & mask = pattern` (R53). -/
structure OpcodeRow where
  op : Op
  pattern : Word
  mask : Word
  deriving DecidableEq, Repr

/-- The row of each mnemonic, transcribed from R53. -/
def Op.row : Op → OpcodeRow
  | .nop => ⟨.nop, 0x00000000, 0xFFFFFFFF⟩
  | .iclr => ⟨.iclr, 0x00000001, 0xFFFFFFFF⟩
  | .push => ⟨.push, 0x00000002, 0xFFFF00FF⟩
  | .mvoi => ⟨.mvoi, 0x00000003, 0xFFFFFFFF⟩
  | .b256to58 => ⟨.b256to58, 0x00000010, 0xFFFFFFFF⟩
  | .b58to256 => ⟨.b58to256, 0x00000011, 0xFFFFFFFF⟩
  | .rg8to5 => ⟨.rg8to5, 0x00000020, 0xFFFFFFFF⟩
  | .rg5to8 => ⟨.rg5to8, 0x00000021, 0xFFFFFFFF⟩
  | .pminit => ⟨.pminit, 0x00000030, 0xFFFFFFFF⟩
  | .pmstep => ⟨.pmstep, 0x00000031, 0xFFFFE0FF⟩
  | .pmabs => ⟨.pmabs, 0x00000032, 0xFFFFFFFF⟩
  | .pmhrp => ⟨.pmhrp, 0x00000033, 0xFFFFFFFF⟩
  | .pmsum => ⟨.pmsum, 0x00000034, 0xFFFFFEFF⟩
  | .pmvfy => ⟨.pmvfy, 0x00000035, 0xFFFFFFFF⟩

/-- The opcode map in the order of R53. -/
def opcodeTable : List OpcodeRow :=
  [Op.nop, .iclr, .push, .mvoi, .b256to58, .b58to256, .rg8to5, .rg5to8,
    .pminit, .pmstep, .pmabs, .pmhrp, .pmsum, .pmvfy].map Op.row

/-- `W` encodes the command of the row (R53). -/
def OpcodeRow.matchesWord (r : OpcodeRow) (w : Word) : Bool := w &&& r.mask == r.pattern

/-- The instruction the decoder reads from a table word of `nbits` bits whose bits are `w`; `none`
where the word is illegal, or where more than one 32-bit word is given. A command is one 32-bit word and
the bus shows no byte order (R32, R50), so the word is taken whole. -/
def decodeTableWord (nbits w : Nat) : Option Instr :=
  if 32 < nbits then none
  else
    match decode (BitVec.ofNat 32 (w % 2 ^ nbits)) with
    | .command i => some i
    | .illegal _ => none

end Sys2Proof
end

