-- ==== Sys2Proof/Machine/Params.lean ====
section
/-! DEFINITION. The values the machine runs at: the defaults the spec chose for its OPEN parameters. -/

namespace Sys2Proof

/-- The defaults of R5, the values the machine runs at. DESIGN CHOICE of the spec for the four numbers
(log entry 3); PRESUMED for `gen`, which the spec marks as general knowledge (R122, log entry 4). -/
def Config.standard : Config where
  bufCap := 16384
  rg8Max := 10240
  rg5Max := 16384
  leftoverLimit := 5
  gen := #v[0x3b6a57b2, 0x26508e6d, 0x1ea119fa, 0x3d4233dd, 0x2a1462b3]

end Sys2Proof
end

