-- ==== Sys2Proof/Machine/State.lean ====
section
/-! DEFINITION. The block's architectural state, exactly the tuple of R25; the state of the machine,
which holds the host's side of the port beside it (log entry 1); the reasons for which the model can stop. -/

namespace Sys2Proof.Machine

/-- The codes of the precondition violations, recorded by fault entry (R19, R151). -/
inductive FaultCode where
  /-- E_LEN: input exceeding a documented maximum length -/
  | eLen
  /-- E_UNIT: an input unit too large for the base or width it is read in -/
  | eUnit
  /-- E_OPC: the command word is not one of the 14 encodings -/
  | eOpc
  /-- E_OVF: PUSH with IBUF already full -/
  | eOvf
  deriving DecidableEq, Repr

/-- The codes of the decoding failures, recorded by failure entry (R19, R151). -/
inductive FailCode where
  /-- E_EXCESS: too many leftover bits -/
  | eExcess
  /-- E_PAD: non-zero padding -/
  | ePad
  /-- E_CSUM: checksum invalid -/
  | eCsum
  deriving DecidableEq, Repr

/-- ERR, the reason code (R19). The codes that "are never produced" are left out of the type, as
`93_implementation_defined.md` I8 allows; `Err.code` gives the 4 bits. -/
inductive Err where
  | none
  | fault (c : FaultCode)
  | fail (c : FailCode)
  deriving DecidableEq, Repr

/-- VAR, the variant the last PMVFY found: "an enumeration with an explicit NONE" (R20). -/
inductive Var where
  | none
  | bech32
  | bech32m
  deriving DecidableEq, Repr

/-- The architectural state of BTCODEC: exactly the tuple of R25, "these fields and no other". IBUF and OBUF
are sequences of exactly ILEN and OLEN units (R12, R14), so the two fill counts are their lengths
(`Block.ilen`, `Block.olen`). Every command's rule is a function on this type. -/
structure Block where
  /-- IBUF, the input buffer (R12). -/
  ibuf : List Byte
  /-- OBUF, the output buffer (R14). -/
  obuf : List Byte
  /-- CHK, the polymod register (R16). -/
  chk : Chk
  /-- FAULT, sticky (R17). -/
  fault : Bool
  /-- FAIL, of the most recent accepted command (R18). -/
  fail : Bool
  /-- ERR (R19). -/
  err : Err
  /-- VAR (R20). -/
  var : Var
  deriving DecidableEq, Repr

/-- The reset state of the block (R180). -/
def Block.reset : Block where
  ibuf := []
  obuf := []
  chk := chkSeed
  fault := false
  fail := false
  err := .none
  var := .none

/-- The state of the machine: the block, and beside it the host's side of the port. A step is given
nothing but the state, so what R52 takes as an argument, the word the host writes, has to stand in it; no
command's rule can see or change these two lists (log entry 1). -/
structure State extends Block where
  /-- The host's accesses that have not reached the port yet, next one first (R11, R43). -/
  pending : List HostEvent
  /-- The words the host's reads have returned, oldest first (R36). -/
  answers : List Word
  deriving DecidableEq, Repr

/-- The machine after reset: the block in the reset state (R180), the model's own two lists empty (log
entry 1). -/
def State.reset : State where
  toBlock := Block.reset
  pending := []
  answers := []

/-- Why the machine can stop with a fault. (The block's own faults are next states: R152.) -/
inductive Fault where
  /-- Raised by the port, for a host access at an offset at or past 0x30000, which is not the block's:
  "what an access there does is the platform's business" (R41). No command raises it. Safe. -/
  | outsideRegion
  deriving DecidableEq, Repr

/-- Why the machine can refuse. -/
inductive Refusal where
  /-- The form the pipeline fixes for an instruction without a meaning; no arm of `exec` uses it. Safe. -/
  | notModelled (mnemonic : String)
  /-- Raised by the port, for an 8-, 16- or 64-bit access: "A model *refuses* such an access" (R33). Safe. -/
  | accessWidth
  /-- Raised by the port, for a 32-bit access that is not 4-byte aligned (R33). Safe. -/
  | unalignedAccess
  deriving DecidableEq, Repr

/-- What a step or a command answers. -/
abbrev Answer := Host.Outcome State Fault Refusal

end Sys2Proof.Machine
end

