-- ==== Sys2Proof/Machine/Operands.lean ====
section
/-! DEFINITION. How a command reads its operand: the input sequence `IN` as bytes, as base-58 digits or
as quintets (R12, R51, R80), the range check on its units (R151), and the constant a variant selects. -/

namespace Sys2Proof.Machine

/-- Some unit is at or above the bound: the condition of E_UNIT (R151). -/
def someUnitAtLeast (bound : Nat) (us : List Byte) : Bool := us.any (fun u => decide (bound ≤ u.toNat))

/-- Units read as quintets: bits 4:0 of each cell (R31). Used only after the check that every unit is
below 32. -/
def toQuintets (us : List Byte) : List Quintet := us.map (fun u => u.setWidth 5)

/-- Quintets in cells: bits 4:0, with bits 7:5 zero (R31). -/
def ofQuintets (qs : List Quintet) : List Byte := qs.map (fun q => q.setWidth 8)

/-- The checksum constant `K` of a variant (R131). -/
def variantConst : Variant → Chk
  | .bech32 => constBech32
  | .bech32m => constBech32m

end Sys2Proof.Machine
end

