-- ==== Sys2Proof/Machine/Ops.lean ====
section
/-! DEFINITION. The named operations on the block: the fill counts, the writes of the state elements
(R8), fault entry (R152), failure entry (R153), leaving a failure (R154) and reset (R181). -/

namespace Sys2Proof.Machine

/-- ILEN, the number of meaningful cells of IBUF (R13). -/
def Block.ilen (s : Block) : Nat := s.ibuf.length

/-- OLEN, the number of meaningful cells of OBUF (R15). -/
def Block.olen (s : Block) : Nat := s.obuf.length

/-- `IBUF <- us`, with `ILEN <- len(us)` as part of the same write (R8). -/
def Block.setIbuf (s : Block) (us : List Byte) : Block := { s with ibuf := us }

/-- `OBUF <- us`, with `OLEN <- len(us)` as part of the same write (R8). -/
def Block.setObuf (s : Block) (us : List Byte) : Block := { s with obuf := us }

/-- `CHK <- c` (R16). -/
def Block.setChk (s : Block) (c : Chk) : Block := { s with chk := c }

/-- `VAR <- v` (R20). -/
def Block.setVar (s : Block) (v : Var) : Block := { s with var := v }

/-- `FAIL <- 0; ERR <- 0`: "every accepted command starts clean" (R52, R154). -/
def Block.startClean (s : Block) : Block := { s with fail := false, err := .none }

/-- Fault entry, `raise Fault(code)` (R152). -/
def Block.raiseFault (s : Block) (code : FaultCode) : Block :=
  { s with fault := true, fail := false, err := .fault code, obuf := [], var := .none }

/-- Failure entry, `fail(code)` (R153): RG5TO8, whose codes are E_EXCESS and E_PAD, withholds its whole
output; PMVFY, whose code is E_CSUM, leaves VAR at NONE. -/
def Block.failEntry (s : Block) (code : FailCode) : Block :=
  match code with
  | .eExcess | .ePad => { s with fail := true, err := .fail code, obuf := [] }
  | .eCsum => { s with fail := true, err := .fail code, var := .none }

/-- What a CMD write that carries a command does to the block (R52): with FAULT = 1 it is discarded;
otherwise FAIL and ERR are cleared and the command's rule runs. -/
def commandEffect (rule : Block → Block) (s : Block) : Block :=
  if s.fault then s else rule s.startClean

/-- What a CMD write that carries an illegal word does (R52, R55). -/
def illegalEffect (s : Block) : Block := if s.fault then s else s.raiseFault .eOpc

/-! On the whole machine -/

/-- Something happens in the block; the host keeps what it has. -/
def State.onBlock (s : State) (f : Block → Block) : State := { s with toBlock := f s.toBlock }

/-- Reset (R181): every element of the block has its reset value. -/
def State.afterReset (s : State) : State := s.onBlock (fun _ => .reset)

/-- A command as an answer of the machine: it always completes (R52, R197). -/
def runCommand (rule : Block → Block) (s : State) : Answer := .next (s.onBlock (commandEffect rule))

end Sys2Proof.Machine
end

