-- ==== Sys2Proof/Machine/BaseConverter.lean ====
section
/-! DEFINITION. The Base Converter: its functions (R81 to R84) and the commands B256TO58 (R85) and
B58TO256 (R86). All arithmetic is exact, on naturals (R87). -/

namespace Sys2Proof.Machine

/-- `value(s, b)`, the number a digit sequence stands for, most significant digit first:
`value(s ++ [d], b) = value(s, b) · b + d` (R81). The units may be of any width (R100 and R126 use it
on quintets). -/
def value {w : Nat} (s : List (BitVec w)) (b : Nat) : Nat := s.foldl (fun n d => n * b + d.toNat) 0

/-- The digits of `n` in base `b` put before `tail`, at most `fuel` of them: the recursion of R82 with
the digits taken from the least significant end. -/
def digitsOnto (b : Nat) : Nat → Nat → List Byte → List Byte
  | 0, _, tail => tail
  | fuel + 1, n, tail =>
    if n = 0 then tail else digitsOnto b fuel (n / b) (BitVec.ofNat 8 (n % b) :: tail)

/-- `digits(n, b)`, the shortest digit sequence of `n`, most significant first (R82). A number has at
most as many digits in a base of 2 or more as it has bits, which is the fuel. -/
def digits (n b : Nat) : List Byte := digitsOnto b (n.log2 + 1) n []

/-- `lz(s)`, the number of leading zero units of `s` (R83). -/
def lz (s : List Byte) : Nat := (s.takeWhile (fun u => u == 0)).length

/-- `convert_base(s, from, to) = rep(0, lz(s)) ++ digits(value(s, from), to)` (R84). -/
def convertBase (s : List Byte) (fromBase toBase : Nat) : List Byte :=
  List.replicate (lz s) 0 ++ digits (value s fromBase) toBase

/-- B256TO58 (R85). -/
def b256to58Rule (s : Block) : Block :=
  if cvMax < s.ilen then s.raiseFault .eLen else s.setObuf (convertBase s.ibuf 256 58)

/-- B58TO256 (R86): the length first, then the units (R155). -/
def b58to256Rule (s : Block) : Block :=
  if cvMax < s.ilen then s.raiseFault .eLen
  else if someUnitAtLeast 58 s.ibuf then s.raiseFault .eUnit
  else s.setObuf (convertBase s.ibuf 58 256)

/-- The meaning of B256TO58 (R85, R52). -/
def execB256to58 (s : State) : Answer := runCommand b256to58Rule s

/-- The meaning of B58TO256 (R86, R52). -/
def execB58to256 (s : State) : Answer := runCommand b58to256Rule s

end Sys2Proof.Machine
end

