-- ==== Sys2Proof/Machine/BitRegrouper.lean ====
section
/-! DEFINITION. The Bit Regrouper: its functions (R100, R101, R103) and the commands RG8TO5 (R102) and
RG5TO8 (R104). -/

namespace Sys2Proof.Machine

/-- The bits of one unit, most significant first (R31, R100). -/
def unitBits {w : Nat} (u : BitVec w) : List Bool := (List.range w).map (fun t => u.getLsbD (w - 1 - t))

/-- `bitstream(s, w)`: the bits of each unit, most significant first, units in order (R100). -/
def bitstream {w : Nat} (s : List (BitVec w)) : List Bool := s.flatMap unitBits

/-- The number a bit sequence stands for, first bit most significant (R100). -/
def bitsValue (bs : List Bool) : Nat := bs.foldl (fun n b => 2 * n + b.toNat) 0

/-- The first `k` groups of `w` bits of a stream, each read most significant bit first (R101, R103). -/
def groups (w : Nat) : Nat → List Bool → List (BitVec w)
  | 0, _ => []
  | k + 1, bs => BitVec.ofNat w (bitsValue (bs.take w)) :: groups w k (bs.drop w)

/-- `L = ceil(8n/5)`, the number of quintets `n` bytes regroup to (R101). -/
def quintetCount (n : Nat) : Nat := (8 * n + 4) / 5

/-- `regroup_8to5(s)`: the stream extended by `p = 5L - T` zero bits and cut into `L` groups (R101). -/
def regroup8to5 (s : List Byte) : List Quintet :=
  let l := quintetCount s.length
  groups 5 l (bitstream s ++ List.replicate (5 * l - 8 * s.length) false)

/-- What `regroup_5to8` returns (R103). -/
inductive Regrouped where
  | excess
  | pad
  | bytes (b : List Byte)
  deriving DecidableEq, Repr

/-- `regroup_5to8(s)` (R103), with `k = T div 8` whole bytes and `r = T mod 8` leftover bits: E_EXCESS is
tested before E_PAD (R155). -/
def regroup5to8 (cfg : Config) (s : List Quintet) : Regrouped :=
  let t := 5 * s.length
  let b := bitstream s
  if cfg.leftoverLimit ≤ t % 8 then .excess
  else if (b.drop (8 * (t / 8))).any id then .pad
  else .bytes (groups 8 (t / 8) b)

/-- RG8TO5 (R102). -/
def rg8to5Rule (cfg : Config) (s : Block) : Block :=
  if cfg.rg8Max < s.ilen then s.raiseFault .eLen else s.setObuf (ofQuintets (regroup8to5 s.ibuf))

/-- RG5TO8 (R104): the length, then the units, then the two failures (R155). -/
def rg5to8Rule (cfg : Config) (s : Block) : Block :=
  if cfg.rg5Max < s.ilen then s.raiseFault .eLen
  else if someUnitAtLeast 32 s.ibuf then s.raiseFault .eUnit
  else
    match regroup5to8 cfg (toQuintets s.ibuf) with
    | .excess => s.failEntry .eExcess
    | .pad => s.failEntry .ePad
    | .bytes b => s.setObuf b

/-- The meaning of RG8TO5 (R102, R52). -/
def execRg8to5 (s : State) : Answer := runCommand (rg8to5Rule .standard) s

/-- The meaning of RG5TO8 (R104, R52). -/
def execRg5to8 (s : State) : Answer := runCommand (rg5to8Rule .standard) s

end Sys2Proof.Machine
end

