-- ==== Sys2Proof/Machine/Buffer.lean ====
section
/-! DEFINITION. The buffer commands: NOP (R70), ICLR (R71), PUSH (R72), MVOI (R73). -/

namespace Sys2Proof.Machine

/-- NOP: nothing (R70). -/
def nopRule (s : Block) : Block := s

/-- ICLR: `IBUF <- []` (R71). -/
def iclrRule (s : Block) : Block := s.setIbuf []

/-- PUSH u: E_OVF when IBUF is full, else append one unit (R72). -/
def pushRule (cfg : Config) (u : Byte) (s : Block) : Block :=
  if s.ilen = cfg.bufCap then s.raiseFault .eOvf else s.setIbuf (s.ibuf ++ [u])

/-- MVOI: `IBUF <- OBUF[0..OLEN)` (R73). -/
def mvoiRule (s : Block) : Block := s.setIbuf s.obuf

/-- The meaning of NOP (R70, R52). -/
def execNop (s : State) : Answer := runCommand nopRule s

/-- The meaning of ICLR (R71, R52). -/
def execIclr (s : State) : Answer := runCommand iclrRule s

/-- The meaning of PUSH u (R72, R52). -/
def execPush (u : Byte) (s : State) : Answer := runCommand (pushRule .standard u) s

/-- The meaning of MVOI (R73, R52). -/
def execMvoi (s : State) : Answer := runCommand mvoiRule s

end Sys2Proof.Machine
end

