-- ==== Sys2Proof/Machine/Polymod.lean ====
section
/-! DEFINITION. The polymod engine: its functions (R121 to R126) and the commands PMINIT (R127), PMSTEP
(R128), PMABS (R129), PMHRP (R130), PMSUM (R131) and PMVFY (R132). -/

namespace Sys2Proof.Machine

/-- `GEN[i]` where bit `i` of `top` is 1, else 0: what one constant adds to a step (R121). -/
def genTerm (cfg : Config) (top : Quintet) (i : Fin 5) : Chk :=
  if top.getLsbD i then cfg.gen[i] else 0

/-- The constants that `top` selects, XORed together (R121). -/
def genFold (cfg : Config) (top : Quintet) : Chk :=
  genTerm cfg top 0 ^^^ genTerm cfg top 1 ^^^ genTerm cfg top 2 ^^^ genTerm cfg top 3 ^^^ genTerm cfg top 4

/-- `pm_step(c, v)`, one step of the register: `top = c[29:25]`, `c[24:0]` moved up 5 places with `v` in
bits 4:0, and the selected constants XORed in (R121). -/
def pmStep (cfg : Config) (c : Chk) (v : Quintet) : Chk :=
  (((c &&& 0x01FFFFFF) <<< 5) ^^^ v.setWidth 30) ^^^ genFold cfg (c.extractLsb' 25 5)

/-- `pm_absorb(c, s)`, the register after the quintets of `s` in order (R123). -/
def pmAbsorb (cfg : Config) (c : Chk) (s : List Quintet) : Chk := s.foldl (pmStep cfg) c

/-- `hrp_expand(s)`: the top 3 bits of each byte, a zero quintet, the bottom 5 bits of each byte (R124). -/
def hrpExpand (s : List Byte) : List Quintet :=
  s.map (fun (u : Byte) => (u >>> 5).setWidth 5) ++ [0] ++ s.map (fun (u : Byte) => u.setWidth 5)

/-- `pack6(m)`: the six quintets of `m`, most significant first (R126). -/
def pack6 (m : Chk) : List Quintet :=
  [m.extractLsb' 25 5, m.extractLsb' 20 5, m.extractLsb' 15 5, m.extractLsb' 10 5, m.extractLsb' 5 5,
    m.extractLsb' 0 5]

/-- PMINIT: `CHK <- CHK_SEED`, `VAR <- NONE` (R127). -/
def pminitRule (s : Block) : Block := (s.setChk chkSeed).setVar .none

/-- PMSTEP v: `CHK <- pm_step(CHK, v)` (R128). -/
def pmstepRule (cfg : Config) (v : Quintet) (s : Block) : Block := s.setChk (pmStep cfg s.chk v)

/-- PMABS: the units are checked over the whole input before CHK changes (R129). -/
def pmabsRule (cfg : Config) (s : Block) : Block :=
  if someUnitAtLeast 32 s.ibuf then s.raiseFault .eUnit
  else s.setChk (pmAbsorb cfg s.chk (toQuintets s.ibuf))

/-- PMHRP: `CHK <- pm_absorb(CHK, hrp_expand(IN))` (R130). -/
def pmhrpRule (cfg : Config) (s : Block) : Block := s.setChk (pmAbsorb cfg s.chk (hrpExpand s.ibuf))

/-- The register after the six placeholder zero quintets (R131). -/
def absorbPlaceholders (cfg : Config) (c : Chk) : Chk := pmAbsorb cfg c (List.replicate csumLen 0)

/-- PMSUM m: CHK is left at the value before the XOR with `K`, which goes to OBUF only (R131). -/
def pmsumRule (cfg : Config) (m : Variant) (s : Block) : Block :=
  let c := absorbPlaceholders cfg s.chk
  (s.setChk c).setObuf (ofQuintets (pack6 (c ^^^ variantConst m)))

/-- PMVFY: VAR is the variant whose constant CHK equals; E_CSUM if neither (R132). -/
def pmvfyRule (s : Block) : Block :=
  if s.chk = constBech32 then s.setVar .bech32
  else if s.chk = constBech32m then s.setVar .bech32m
  else (s.setVar .none).failEntry .eCsum

/-- The meaning of PMINIT (R127, R52). -/
def execPminit (s : State) : Answer := runCommand pminitRule s

/-- The meaning of PMSTEP v (R128, R52). -/
def execPmstep (v : Quintet) (s : State) : Answer := runCommand (pmstepRule .standard v) s

/-- The meaning of PMABS (R129, R52). -/
def execPmabs (s : State) : Answer := runCommand (pmabsRule .standard) s

/-- The meaning of PMHRP (R130, R52). -/
def execPmhrp (s : State) : Answer := runCommand (pmhrpRule .standard) s

/-- The meaning of PMSUM m (R131, R52). -/
def execPmsum (m : Variant) (s : State) : Answer := runCommand (pmsumRule .standard m) s

/-- The meaning of PMVFY (R132, R52). -/
def execPmvfy (s : State) : Answer := runCommand pmvfyRule s

end Sys2Proof.Machine
end

