-- ==== Sys2Proof/Machine/Dispatch.lean ====
section
/-! DEFINITION. One arm per command: what a CMD write that carries it does. -/

namespace Sys2Proof.Machine

/-- The command `i` written to CMD in the state `s` (R52). -/
def exec (i : Instr) (s : State) : Host.Outcome State Fault Refusal :=
  match i with
  | .nop => Sys2Proof.Machine.execNop s
  | .iclr => Sys2Proof.Machine.execIclr s
  | .push u => Sys2Proof.Machine.execPush u s
  | .mvoi => Sys2Proof.Machine.execMvoi s
  | .b256to58 => Sys2Proof.Machine.execB256to58 s
  | .b58to256 => Sys2Proof.Machine.execB58to256 s
  | .rg8to5 => Sys2Proof.Machine.execRg8to5 s
  | .rg5to8 => Sys2Proof.Machine.execRg5to8 s
  | .pminit => Sys2Proof.Machine.execPminit s
  | .pmstep v => Sys2Proof.Machine.execPmstep v s
  | .pmabs => Sys2Proof.Machine.execPmabs s
  | .pmhrp => Sys2Proof.Machine.execPmhrp s
  | .pmsum m => Sys2Proof.Machine.execPmsum m s
  | .pmvfy => Sys2Proof.Machine.execPmvfy s

end Sys2Proof.Machine
end

