-- ==== Sys2Proof/Machine/Flags.lean ====
section
/-! DEFINITION. The codes of ERR and VAR and the STATUS word (R19, R20, R24). There are no condition
codes to compute (R27). -/

namespace Sys2Proof.Machine

/-- The number of a fault code (R19). -/
def FaultCode.code : FaultCode → BitVec 4
  | .eLen => 1
  | .eUnit => 2
  | .eOpc => 3
  | .eOvf => 4

/-- The number of a failure code (R19). -/
def FailCode.code : FailCode → BitVec 4
  | .eExcess => 8
  | .ePad => 9
  | .eCsum => 10

/-- The 4 bits of ERR (R19). -/
def Err.code : Err → BitVec 4
  | .none => 0
  | .fault c => c.code
  | .fail c => c.code

/-- The 2 bits of VAR (R20). -/
def Var.code : Var → BitVec 2
  | .none => 0
  | .bech32 => 1
  | .bech32m => 2

/-- One flag as a 32-bit word. -/
def flagWord (b : Bool) : Word := (BitVec.ofBool b).setWidth 32

/-- `FAULT | (FAIL << 1) | (ERR << 4) | (VAR << 8)`, the read value of STATUS (R24). -/
def Block.status (s : Block) : Word :=
  flagWord s.fault ||| (flagWord s.fail <<< 1) ||| (s.err.code.setWidth 32 <<< 4)
    ||| (s.var.code.setWidth 32 <<< 8)

end Sys2Proof.Machine
end

