-- ==== Sys2Proof/Machine/Bus.lean ====
section
/-! DEFINITION. The bus port: the register map (R35), the host's read (R36) and write (R37), the
accesses the port cannot carry (R33, R41), and the order of arrival (R43). -/

namespace Sys2Proof.Machine

/-- Offset of CMD (R35). -/
abbrev offCmd : Nat := 0x00000
/-- Offset of STATUS (R35). -/
abbrev offStatus : Nat := 0x00004
/-- Offset of ILEN (R35). -/
abbrev offIlen : Nat := 0x00008
/-- Offset of OLEN (R35). -/
abbrev offOlen : Nat := 0x0000C
/-- Offset of CHK (R35). -/
abbrev offChk : Nat := 0x00010
/-- Offset of register 0 of the IBUF window (R35). -/
abbrev offIbufWindow : Nat := 0x10000
/-- Offset of register 0 of the OBUF window (R35). -/
abbrev offObufWindow : Nat := 0x20000

/-- Register `i` of a window: the cell zero-extended below the fill count, 0 at and past it (R38). -/
def windowRead (us : List Byte) (i : Nat) : Word :=
  match us[i]? with
  | some u => u.setWidth 32
  | none => 0

/-- `RegRead(off)` (R36): a pure function of the state. CMD and every reserved offset read 0. -/
def regRead (cfg : Config) (s : Block) (off : Nat) : Word :=
  if off = offStatus then s.status
  else if off = offIlen then BitVec.ofNat 32 s.ilen
  else if off = offOlen then BitVec.ofNat 32 s.olen
  else if off = offChk then s.chk.setWidth 32
  else if offIbufWindow ≤ off ∧ off < offIbufWindow + 4 * cfg.bufCap then
    windowRead s.ibuf ((off - offIbufWindow) / 4)
  else if offObufWindow ≤ off ∧ off < offObufWindow + 4 * cfg.bufCap then
    windowRead s.obuf ((off - offObufWindow) / 4)
  else 0

/-- A write of `w` to CMD (R52): decode, then run the command or enter the E_OPC fault. Both arms
discard the word when FAULT = 1. -/
def writeCmd (w : Word) (s : State) : Answer :=
  match decode w with
  | .command i => exec i s
  | .illegal _ => .next (s.onBlock illegalEffect)

/-- `RegWrite(off, v)` (R37): a write to CMD runs one command; any other write is ignored. -/
def regWrite (off : Nat) (v : Word) (s : State) : Answer :=
  if off = offCmd then writeCmd v s else .next s

/-- The host gets a word back from a read. -/
def State.pushAnswer (s : State) (v : Word) : State := { s with answers := s.answers ++ [v] }

/-- What the port does with an access: an offset past the region is not the block's (R41); an access
that is not a whole aligned word cannot be presented to the block (R33); any other is performed. -/
def atPort (width : AccessWidth) (off : Nat) (perform : Answer) : Answer :=
  if regionBytes ≤ off then .fault .outsideRegion
  else if width ≠ .w32 then .refused .accessWidth
  else if off % 4 ≠ 0 then .refused .unalignedAccess
  else perform

/-- One host event reaching the block (R196). -/
def respond (e : HostEvent) (s : State) : Answer :=
  match e with
  | .write width off v => atPort width off (regWrite off v s)
  | .read width off => atPort width off (.next (s.pushAnswer (regRead .standard s.toBlock off)))
  | .reset => .next s.afterReset

/-- The next event in arrival order, performed to completion (R42, R43). With none left the block is
idle and holds its state (R170). -/
def serve (s : State) : Answer :=
  match s.pending with
  | [] => .next s
  | e :: rest => respond e { s with pending := rest }

/-- A CMD write of `w`: what a program's word is to the port (R11). -/
def cmdWrite (w : Word) : HostEvent := .write .w32 offCmd w

/-- `s` with a CMD write of `w` as the next access to arrive. -/
def State.withNextCommand (s : State) (w : Word) : State := { s with pending := cmdWrite w :: s.pending }

end Sys2Proof.Machine
end

