-- ==== Sys2Proof/Machine/Step.lean ====
section
/-! DEFINITION. One step of the machine: the next host event reaches the block. -/

namespace Sys2Proof.Machine

/-- One step (R43, R52, R196). -/
def step (s : State) : Host.Outcome State Fault Refusal := serve s

/-- `s` with the instruction of `nbits` bits whose bits are `w` placed so that the very next step runs
it. The block fetches nothing (R11): the word is the data of the next CMD write of the host, so it is put
first in `pending`, before whatever the host had still to send (log entry 9). Nothing else changes; a
block with FAULT = 1 discards it (R158). -/
def State.withFetchWord (s : State) (nbits w : Nat) : State :=
  s.withNextCommand (BitVec.ofNat 32 (w % 2 ^ nbits))

end Sys2Proof.Machine
end

