-- ==== Sys2Proof/Machine/Command.lean ====
section
/-! DEFINITION. The spec's own step function, `step : State × Word32 -> State` (R52), on the state of R25, for any
configuration (R5), and a run of a list of command words (R197). -/

namespace Sys2Proof.Machine

/-- The rule of a command, the last line of `step` in R52. -/
def ruleOf (cfg : Config) (i : Instr) : Block → Block :=
  match i with
  | .nop => nopRule
  | .iclr => iclrRule
  | .push u => pushRule cfg u
  | .mvoi => mvoiRule
  | .b256to58 => b256to58Rule
  | .b58to256 => b58to256Rule
  | .rg8to5 => rg8to5Rule cfg
  | .rg5to8 => rg5to8Rule cfg
  | .pminit => pminitRule
  | .pmstep v => pmstepRule cfg v
  | .pmabs => pmabsRule cfg
  | .pmhrp => pmhrpRule cfg
  | .pmsum m => pmsumRule cfg m
  | .pmvfy => pmvfyRule

/-- `step(state, W)` of R52, a total function, for the parameters `cfg`. The machine is this function
at `Config.standard`. -/
def wordEffect (cfg : Config) (w : Word) (s : Block) : Block :=
  match decode w with
  | .command i => commandEffect (ruleOf cfg i) s
  | .illegal _ => illegalEffect s

/-- The run of a program: `step` applied to each word in index order (R11, R197). -/
def runWords (cfg : Config) (ws : List Word) (s : Block) : Block :=
  ws.foldl (fun t w => wordEffect cfg w t) s

/-- `LOAD us`: ICLR, then PUSH of each unit (R59). -/
def loadWords (us : List Byte) : List Word := encode .iclr :: us.map (fun u => encode (.push u))

/-- `PMZERO6`: PMSTEP 0 six times (R59). -/
def pmzero6Words : List Word := List.replicate csumLen (encode (.pmstep 0))

/-- The command sequence of a checksum creation: `PMINIT; LOAD h; PMHRP; LOAD d; PMABS; PMSUM m` (R133). -/
def creationWords (h : List Byte) (d : List Quintet) (m : Variant) : List Word :=
  [encode .pminit] ++ loadWords h ++ [encode .pmhrp] ++ loadWords (ofQuintets d)
    ++ [encode .pmabs, encode (.pmsum m)]

/-- The command sequence of a checksum verification: `PMINIT; LOAD h; PMHRP; LOAD x; PMABS; PMVFY` (R134). -/
def verificationWords (h : List Byte) (x : List Quintet) : List Word :=
  [encode .pminit] ++ loadWords h ++ [encode .pmhrp] ++ loadWords (ofQuintets x)
    ++ [encode .pmabs, encode .pmvfy]

end Sys2Proof.Machine
end

