-- ==== Sys2Proof/Machine/Assembler.lean ====
section
/-! DEFINITION. The spec's textual form of a program: what each line puts into the host's list of
accesses (R58, R59), and how a line's text is read. -/

namespace Sys2Proof.Machine

/-- The command an assembler line names, `none` where the line is an assembler error (R58). -/
def instrOf (op : Op) (operand : Option Operand) : Option Instr :=
  match op, operand with
  | .nop, none => some .nop
  | .iclr, none => some .iclr
  | .push, some (.num n) => if n < 256 then some (.push (BitVec.ofNat 8 n)) else none
  | .mvoi, none => some .mvoi
  | .b256to58, none => some .b256to58
  | .b58to256, none => some .b58to256
  | .rg8to5, none => some .rg8to5
  | .rg5to8, none => some .rg5to8
  | .pminit, none => some .pminit
  | .pmstep, some (.num n) => if n < 32 then some (.pmstep (BitVec.ofNat 5 n)) else none
  | .pmabs, none => some .pmabs
  | .pmhrp, none => some .pmhrp
  | .pmsum, some (.num 0) => some (.pmsum .bech32)
  | .pmsum, some (.num 1) => some (.pmsum .bech32m)
  | .pmsum, some (.variant m) => some (.pmsum m)
  | .pmvfy, none => some .pmvfy
  | _, _ => none

/-- The offset a directive's register name stands for (R35, R59). -/
def regOffset : RegName → Nat
  | .cmd => offCmd
  | .status => offStatus
  | .ilen => offIlen
  | .olen => offOlen
  | .chk => offChk
  | .ibuf i => offIbufWindow + 4 * i
  | .obuf i => offObufWindow + 4 * i

/-- The accesses a well-formed line stands for; `EXPECT` encodes nothing (R59). -/
def lineEvents : AsmLine → List HostEvent
  | .blank => []
  | .command op operand =>
    match instrOf op operand with
    | some i => [cmdWrite (encode i)]
    | none => []
  | .word n => [cmdWrite (BitVec.ofNat 32 n)]
  | .load us => (loadWords (us.map (BitVec.ofNat 8))).map cmdWrite
  | .loads text => (loadWords (text.map (fun c => BitVec.ofNat 8 c.toNat))).map cmdWrite
  | .pmzero6 => pmzero6Words.map cmdWrite
  | .rd r => [.read .w32 (regOffset r)]
  | .expect _ _ => []

/-- The accesses of one line; `none` where the line "is an assembler error and encodes nothing" (R58). -/
def assemble (l : AsmLine) : Option (List HostEvent) := if l.wf then some (lineEvents l) else none

/-- The accesses of a program, in line order. DESIGN CHOICE (log entry 15): R58 says only that an erroneous
line encodes nothing, and the model gives a program with such a line no accesses at all, `none`, in place of
those of its other lines. -/
def assembleAll (ls : List AsmLine) : Option (List HostEvent) := (ls.mapM assemble).map List.flatten

/-! The text of a line (R58): a mnemonic in capitals, then its operand, separated by spaces; `;` starts a
comment to the end of the line. What R58 and R59 leave open of the text is log entry 15 (DESIGN CHOICE), which
the docstrings below name where it is settled. -/

/-- A line without its comment. DESIGN CHOICE (log entry 15): a `;` between quotation marks starts one too. -/
def uncomment (cs : List Char) : List Char := cs.takeWhile (fun c => c != ';')

/-- The words of a line, separated by spaces; `word` is the word being read, backwards. DESIGN CHOICE (log entry
15): spaces may stand before the first word and after the last, and no other character separates. -/
def tokens (word : List Char) : List Char → List (List Char)
  | [] => if word.isEmpty then [] else [word.reverse]
  | c :: cs =>
    if c = ' ' then (if word.isEmpty then tokens [] cs else word.reverse :: tokens [] cs)
    else tokens (c :: word) cs

/-- The value of a digit character in a base of at most 16. -/
def digitOf (base : Nat) (c : Char) : Option Nat :=
  let n := c.toNat
  let d := if 48 ≤ n ∧ n ≤ 57 then n - 48
    else if 97 ≤ n ∧ n ≤ 102 then n - 87
    else if 65 ≤ n ∧ n ≤ 70 then n - 55
    else 16
  if d < base then some d else none

/-- A non-empty digit string as a number. -/
def numberIn (base : Nat) (cs : List Char) : Option Nat :=
  if cs.isEmpty then none
  else cs.foldl (fun acc c => acc.bind (fun n => (digitOf base c).map (fun d => n * base + d))) (some 0)

/-- "A decimal numeral or a `0x` hexadecimal numeral" (R58). DESIGN CHOICE (log entry 15): digits of either
case, any number of them, leading zeros included. -/
def numeral : List Char → Option Nat
  | '0' :: 'x' :: cs => numberIn 16 cs
  | cs => numberIn 10 cs

/-- The mnemonic of each command as the opcode map spells it (R53). -/
def opText : Op → String
  | .nop => "NOP"
  | .iclr => "ICLR"
  | .push => "PUSH"
  | .mvoi => "MVOI"
  | .b256to58 => "B256TO58"
  | .b58to256 => "B58TO256"
  | .rg8to5 => "RG8TO5"
  | .rg5to8 => "RG5TO8"
  | .pminit => "PMINIT"
  | .pmstep => "PMSTEP"
  | .pmabs => "PMABS"
  | .pmhrp => "PMHRP"
  | .pmsum => "PMSUM"
  | .pmvfy => "PMVFY"

/-- The mnemonic a word spells. -/
def opOfText (t : List Char) : Option Op :=
  (opcodeTable.map OpcodeRow.op).find? (fun o => (opText o).toList == t)

/-- The operand words of a command: none, a numeral, or a variant's name (R58). -/
def operandOfText : List (List Char) → Option (Option Operand)
  | [] => some none
  | [t] =>
    if t = "BECH32".toList then some (some (.variant .bech32))
    else if t = "BECH32M".toList then some (some (.variant .bech32m))
    else (numeral t).map (fun n => some (.num n))
  | _ => none

/-- `[i]` after a buffer's name. -/
def indexOfText : List Char → Option Nat
  | '[' :: cs => if cs.getLast? = some ']' then numeral cs.dropLast else none
  | _ => none

/-- The register a directive names (R59). DESIGN CHOICE (log entry 15): CMD too, which R59 does not list. -/
def regOfText (t : List Char) : Option RegName :=
  if t = "CMD".toList then some .cmd
  else if t = "STATUS".toList then some .status
  else if t = "ILEN".toList then some .ilen
  else if t = "OLEN".toList then some .olen
  else if t = "CHK".toList then some .chk
  else if t.take 4 = "IBUF".toList then (indexOfText (t.drop 4)).map .ibuf
  else if t.take 4 = "OBUF".toList then (indexOfText (t.drop 4)).map .obuf
  else none

/-- The text between the quotation marks of a LOADS line, given what follows the mnemonic (R59). DESIGN CHOICE
(log entry 15): only spaces may stand before the first quotation mark and after the second. -/
def quotedText (cs : List Char) : Option (List Char) :=
  match cs.dropWhile (fun c => c == ' ') with
  | '"' :: rest =>
    match rest.dropWhile (fun c => c != '"') with
    | _ :: after => if after.all (fun c => c == ' ') then some (rest.takeWhile (fun c => c != '"')) else none
    | [] => none
  | _ => none

/-- What follows the first word of a line. -/
def afterFirstWord (cs : List Char) : List Char :=
  (cs.dropWhile (fun c => c == ' ')).dropWhile (fun c => c != ' ')

/-- The line a text stands for, `none` where it is none of the forms of R58 and R59. DESIGN CHOICE (log entry
15): `.word`, which R58 shows with a `0x` numeral of eight digits only, takes any numeral (`.word 4`,
`.word 0x4`), as a command's operand does; and EXPECT takes its `=` as a word between spaces. -/
def parseLine (cs : List Char) : Option AsmLine :=
  let line := uncomment cs
  match tokens [] line with
  | [] => some .blank
  | t :: args =>
    if t = ".word".toList then
      match args with
      | [a] => (numeral a).map .word
      | _ => none
    else if t = "LOAD".toList then (args.mapM numeral).map .load
    else if t = "LOADS".toList then (quotedText (afterFirstWord line)).map .loads
    else if t = "PMZERO6".toList then (if args.isEmpty then some .pmzero6 else none)
    else if t = "RD".toList then
      match args with
      | [r] => (regOfText r).map .rd
      | _ => none
    else if t = "EXPECT".toList then
      match args with
      | [r, ['='], v] => (regOfText r).bind (fun q => (numeral v).map (.expect q))
      | _ => none
    else (opOfText t).bind (fun o => (operandOfText args).map (.command o))

/-- The accesses the text of a program stands for, line by line; `none` where one line is erroneous (DESIGN
CHOICE, log entry 15). -/
def assembleText (lines : List (List Char)) : Option (List HostEvent) :=
  (lines.mapM parseLine).bind assembleAll

end Sys2Proof.Machine
end

