-- ==== Sys2Proof/Machine/Reference.lean ====
section
/-! DEFINITION. The reference algorithms of the spec, "not architectural" (R89, R106): the loops an
implementation runs. No command uses them; they stand here so that their equality with the definitions the
commands use can be stated. -/

namespace Sys2Proof.Machine

/-- The inner loop of `convert_ref` over the digits of `acc`, least significant first, from a carry in:
the new digits and the carry out (R89). -/
def refMulAdd (fromBase toBase : Nat) : List Nat → Nat → List Nat × Nat
  | [], carry => ([], carry)
  | a :: acc, carry =>
    let c := carry + a * fromBase
    let rest := refMulAdd fromBase toBase acc (c / toBase)
    (c % toBase :: rest.1, rest.2)

/-- `while carry > 0`: the digits the carry appends (R89). The carry itself bounds the turns. -/
def refFlush (toBase : Nat) : Nat → Nat → List Nat
  | 0, _ => []
  | fuel + 1, carry => if carry = 0 then [] else carry % toBase :: refFlush toBase fuel (carry / toBase)

/-- One turn of the outer loop: the input digit `d` is processed (R89). -/
def refDigit (fromBase toBase : Nat) (acc : List Nat) (d : Byte) : List Nat :=
  let r := refMulAdd fromBase toBase acc d.toNat
  r.1 ++ refFlush toBase r.2 r.2

/-- `convert_ref(s, from, to)` (R89). -/
def convertRef (s : List Byte) (fromBase toBase : Nat) : List Byte :=
  List.replicate (lz s) 0
    ++ ((s.drop (lz s)).foldl (refDigit fromBase toBase) []).reverse.map (BitVec.ofNat 8)

/-- The working storage of `regroup_ref`: the bit accumulator, the bit count and the output (R106). -/
structure RegroupAcc where
  acc : Nat
  bits : Nat
  out : List Nat
  deriving DecidableEq, Repr

/-- `while bits ≥ to`: emit whole output words (R106). The bit count bounds the turns. -/
def refEmit (toBits : Nat) : Nat → RegroupAcc → RegroupAcc
  | 0, r => r
  | fuel + 1, r =>
    if toBits ≤ r.bits then
      refEmit toBits fuel
        { r with bits := r.bits - toBits, out := r.out ++ [(r.acc >>> (r.bits - toBits)) &&& (2 ^ toBits - 1)] }
    else r

/-- One unit enters the accumulator, which keeps `from + to - 1` = 12 bits (R106). -/
def refUnit {w : Nat} (toBits : Nat) (r : RegroupAcc) (u : BitVec w) : RegroupAcc :=
  let bits := r.bits + w
  refEmit toBits bits
    { r with acc := ((r.acc <<< w) ||| u.toNat) &&& (2 ^ (w + toBits - 1) - 1), bits := bits }

/-- `regroup_ref` up to the end of its loop (R106). -/
def refLoop {w : Nat} (toBits : Nat) (s : List (BitVec w)) : RegroupAcc :=
  s.foldl (refUnit toBits) { acc := 0, bits := 0, out := [] }

/-- `regroup_ref(s, 8, 5, true)` (R106). -/
def regroupRef8to5 (s : List Byte) : List Quintet :=
  let r := refLoop 5 s
  (if 0 < r.bits then r.out ++ [(r.acc <<< (5 - r.bits)) &&& 31] else r.out).map (BitVec.ofNat 5)

/-- `regroup_ref(s, 5, 8, false)` (R106). -/
def regroupRef5to8 (cfg : Config) (s : List Quintet) : Regrouped :=
  let r := refLoop 8 s
  if cfg.leftoverLimit ≤ r.bits then .excess
  else if r.acc &&& (2 ^ r.bits - 1) ≠ 0 then .pad
  else .bytes (r.out.map (BitVec.ofNat 8))

end Sys2Proof.Machine
end

