-- ==== Sys2Proof/Safety.lean ====
section
/-! DEFINITION. What counts as a good state and a good run, in the terms statements use: the invariants of
R26, the table of causes of R151 in the order of R155, and which commands may write what (R12, R14, R16,
R20). -/

namespace Sys2Proof.Machine

/-- The invariants of R26 that speak of one state. (Its last clause, on what CHK was when the last PMVFY
ran, speaks of a run.) -/
structure Inv (cfg : Config) (s : Block) : Prop where
  ibuf_fits : s.ilen ≤ cfg.bufCap
  obuf_fits : s.olen ≤ cfg.bufCap
  chk_width : s.chk.toNat < 2 ^ 30
  one_domain : ¬ (s.fault = true ∧ s.fail = true)
  no_error : s.fault = false → s.fail = false → s.err.code = 0
  fail_codes : s.fail = true → s.err.code = 8 ∨ s.err.code = 9 ∨ s.err.code = 10
  fault_codes : s.fault = true → s.err.code = 1 ∨ s.err.code = 2 ∨ s.err.code = 3 ∨ s.err.code = 4
  fault_empties : s.fault = true → s.olen = 0 ∧ s.var.code = 0
  var_codes : s.var.code ≠ 3

/-- The fault of a command met in the state `s`, by the exact conditions of R151 in the order of R155. -/
def faultCause (cfg : Config) (i : Instr) (s : Block) : Option FaultCode :=
  match i with
  | .push _ => if s.ibuf.length = cfg.bufCap then some .eOvf else none
  | .b256to58 => if s.ibuf.length > cvMax then some .eLen else none
  | .b58to256 =>
    if s.ibuf.length > cvMax then some .eLen
    else if ∃ u ∈ s.ibuf, u.toNat ≥ 58 then some .eUnit
    else none
  | .rg8to5 => if s.ibuf.length > cfg.rg8Max then some .eLen else none
  | .rg5to8 =>
    if s.ibuf.length > cfg.rg5Max then some .eLen
    else if ∃ u ∈ s.ibuf, u.toNat ≥ 32 then some .eUnit
    else none
  | .pmabs => if ∃ u ∈ s.ibuf, u.toNat ≥ 32 then some .eUnit else none
  | .nop | .iclr | .mvoi | .pminit | .pmstep _ | .pmhrp | .pmsum _ | .pmvfy => none

/-- The number of leftover bits of RG5TO8 on `n` quintets (R103). -/
def leftoverBits (n : Nat) : Nat := (5 * n) % 8

/-- The failure of a command met in the state `s`, where it does not fault (R151, R155). The leftover bits
are the low `r` bits of the number the units stand for in base 32 (the closed form of R103). -/
def failCause (cfg : Config) (i : Instr) (s : Block) : Option FailCode :=
  match i with
  | .rg5to8 =>
    if leftoverBits s.ibuf.length ≥ cfg.leftoverLimit then some .eExcess
    else if value s.ibuf 32 % 2 ^ leftoverBits s.ibuf.length ≠ 0 then some .ePad
    else none
  | .pmvfy => if s.chk ≠ 0x00000001 ∧ s.chk ≠ 0x2BC830A3 then some .eCsum else none
  | .nop | .iclr | .push _ | .mvoi | .b256to58 | .b58to256 | .rg8to5 => none
  | .pminit | .pmstep _ | .pmabs | .pmhrp | .pmsum _ => none

/-- The commands that write IBUF: PUSH, MVOI, ICLR (R12). -/
def writesIbuf : Op → Bool
  | .push | .mvoi | .iclr => true
  | .nop | .b256to58 | .b58to256 | .rg8to5 | .rg5to8 => false
  | .pminit | .pmstep | .pmabs | .pmhrp | .pmsum | .pmvfy => false

/-- The commands that write a result to OBUF (R14). -/
def writesObuf : Op → Bool
  | .b256to58 | .b58to256 | .rg8to5 | .rg5to8 | .pmsum => true
  | .nop | .iclr | .push | .mvoi => false
  | .pminit | .pmstep | .pmabs | .pmhrp | .pmvfy => false

/-- The commands that write CHK (R16). -/
def writesChk : Op → Bool
  | .pminit | .pmstep | .pmabs | .pmhrp | .pmsum => true
  | .nop | .iclr | .push | .mvoi | .b256to58 | .b58to256 | .rg8to5 | .rg5to8 | .pmvfy => false

/-- The commands that write VAR: PMVFY and PMINIT (R20). -/
def writesVar : Op → Bool
  | .pminit | .pmvfy => true
  | .nop | .iclr | .push | .mvoi | .b256to58 | .b58to256 | .rg8to5 | .rg5to8 => false
  | .pmstep | .pmabs | .pmhrp | .pmsum => false

/-- A state from which every access still to come has a meaning (R196). -/
def State.hostWf (s : State) : Bool := s.pending.all HostEvent.wf

end Sys2Proof.Machine
end

