-- ==== Sys2Proof/Certificates/Slice0/Obligations.lean ====
section
/-! DEFINITION. The statements for the provers, in the order of the spec's files. `Config.standard` holds
the spec's default parameters (R5); a statement over `cfg` holds for every configuration it admits. A `Block`
is the state of R25; a `State` is a block with the host beside it, and `s.toBlock` its block. -/

open Sys2Proof Sys2Proof.Machine

/-! ## The state and its invariants (`10_state.md`) -/

/-- R180: every state element has its reset value, so every read of the region is 0 but CHK's. -/
def Obligations.ResetLeavesTheResetState : Prop :=
  State.reset.ibuf = [] ∧ State.reset.ilen = 0 ∧ State.reset.obuf = [] ∧ State.reset.olen = 0 ∧
  State.reset.chk = 0x00000001 ∧ State.reset.fault = false ∧ State.reset.fail = false ∧
  State.reset.err.code = 0 ∧ State.reset.var.code = 0 ∧
  regRead .standard State.reset.toBlock 0x10 = 0x00000001 ∧
  (∀ off, off ≠ 0x10 → regRead .standard State.reset.toBlock off = 0) ∧
  ∀ i, ∃ t, exec i State.reset = .next t ∧ t.fault = false

/-- R26: the invariants hold at reset, for every configuration. -/
def Obligations.InvariantsHoldAtReset : Prop :=
  ∀ cfg, Inv cfg State.reset.toBlock

/-- R26: every CMD write keeps the invariants, under every admissible configuration (R6), and so does
every step of the machine. -/
def Obligations.StepsKeepTheInvariants : Prop :=
  (∀ cfg w (b : Block), cfg.wf = true → Inv cfg b → Inv cfg (wordEffect cfg w b)) ∧
  (∀ s t : State, Inv .standard s.toBlock → step s = .next t → Inv .standard t.toBlock)

/-- R26, last clause, with R20: VAR is BECH32 only where it was before, or where a PMVFY found CHK = 1;
and BECH32M likewise with CHK = 0x2bc830a3. -/
def Obligations.VerdictComesFromTheRegister : Prop :=
  ∀ s t, step s = .next t →
    (t.var = .bech32 → s.var = .bech32 ∨
      (s.pending.head? = some (cmdWrite (encode .pmvfy)) ∧ s.chk = 0x00000001 ∧ t.chk = s.chk)) ∧
    (t.var = .bech32m → s.var = .bech32m ∨
      (s.pending.head? = some (cmdWrite (encode .pmvfy)) ∧ s.chk = 0x2bc830a3 ∧ t.chk = s.chk))

/-- R12, R14, R16, R20: which commands write IBUF, OBUF, CHK and VAR; nothing else does but fault entry
(OBUF, VAR) and failure entry (OBUF). No command touches the host. And what R127 says of PMINIT: every other
command leaves different registers different, so only PMINIT sets CHK to a value that does not depend on CHK;
that clause rests on the presumed constants (log entry 4). -/
def Obligations.OnlyItsWritersChangeAnElement : Prop :=
  ∀ i s t, exec i s = .next t →
    (writesIbuf i.op = false → t.ibuf = s.ibuf) ∧
    (writesChk i.op = false → t.chk = s.chk) ∧
    (writesObuf i.op = false → t.obuf = s.obuf ∨ (s.fault = false ∧ t.fault = true ∧ t.obuf = [])) ∧
    (writesVar i.op = false → t.var = s.var ∨ (s.fault = false ∧ t.fault = true ∧ t.var = .none)) ∧
    (t.fault = true → t.ibuf = s.ibuf ∧ t.chk = s.chk) ∧
    (i ≠ .pminit → ∀ c u, c ≠ s.chk → exec i { s with chk := c } = .next u → u.chk ≠ t.chk) ∧
    t.pending = s.pending ∧ t.answers = s.answers

/-- R24: the fields of STATUS, its reserved bits reading 0, its offset, its reset value, and that a write to
it is ignored. -/
def Obligations.StatusShowsTheFlags : Prop :=
  ∀ s : State,
    s.status.getLsbD 0 = s.fault ∧ s.status.getLsbD 1 = s.fail ∧
    s.status.extractLsb' 2 2 = 0 ∧ s.status.extractLsb' 4 4 = s.err.code ∧
    s.status.extractLsb' 8 2 = s.var.code ∧ s.status.extractLsb' 10 22 = 0 ∧
    regRead .standard s.toBlock 0x04 = s.status ∧ State.reset.status = 0 ∧ ∀ v, regWrite 0x04 v s = .next s

/-! ## The bus port (`20_memory.md`) -/

/-- R36 with R35 and R38: `RegRead` for every admissible configuration (R6), with the windows as long as its
BUF_CAP and every other offset reading 0; and a read answers it and changes nothing of the block, with
FAULT = 1 as with FAULT = 0. -/
def Obligations.ReadAnswersTheRegister : Prop :=
  (∀ (cfg : Config) (b : Block) (off : Nat), cfg.wf = true → off % 4 = 0 → off ≤ 0x2FFFC →
    regRead cfg b off =
      (if off = 0x00004 then b.status
      else if off = 0x00008 then BitVec.ofNat 32 b.ilen
      else if off = 0x0000C then BitVec.ofNat 32 b.olen
      else if off = 0x00010 then b.chk.setWidth 32
      else if off < 0x10000 then 0
      else if off < 0x10000 + 4 * cfg.bufCap then (b.ibuf.getD ((off - 0x10000) / 4) 0).setWidth 32
      else if off < 0x20000 then 0
      else if off < 0x20000 + 4 * cfg.bufCap then (b.obuf.getD ((off - 0x20000) / 4) 0).setWidth 32
      else 0)) ∧
  ∀ (s : State) (off : Nat) (rest : List HostEvent),
    s.pending = .read .w32 off :: rest → off % 4 = 0 → off ≤ 0x2FFFC →
    step s = .next
      { s with pending := rest, answers := s.answers ++ [regRead .standard s.toBlock off] }

/-- R37: a write to CMD performs one step of the spec's step function; a write to any other offset of the
region is ignored. -/
def Obligations.WriteRunsOneCommandOrIsIgnored : Prop :=
  ∀ (s : State) (off : Nat) (v : Word) (rest : List HostEvent),
    s.pending = .write .w32 off v :: rest → off % 4 = 0 → off ≤ 0x2FFFC →
    (off = 0x00000 → step s = .next { s with toBlock := wordEffect .standard v s.toBlock, pending := rest }) ∧
    (off ≠ 0x00000 → step s = .next { s with pending := rest })

/-- R33, R41, and log entry 7 for what the model answers: an access past the region, of another width, or
not aligned stops the machine by name. -/
def Obligations.PortStopsOtherAccesses : Prop :=
  ∀ (s : State) (width : AccessWidth) (off : Nat) (v : Word) (rest : List HostEvent),
    s.pending = .write width off v :: rest ∨ s.pending = .read width off :: rest →
    (0x30000 ≤ off → step s = .fault .outsideRegion) ∧
    (off < 0x30000 → width ≠ .w32 → step s = .refused .accessWidth) ∧
    (off < 0x30000 → width = .w32 → off % 4 ≠ 0 → step s = .refused .unalignedAccess)

/-- R42, R43, R197: a list of CMD writes is performed to completion in order of arrival, one a step, and
leaves what the spec's step function leaves word by word. -/
def Obligations.ProgramRunsInOrder : Prop :=
  ∀ (ws : List Word) (later : List HostEvent) (s : State),
    s.pending = ws.map cmdWrite ++ later →
    core.run ws.length s = .next { s with toBlock := runWords .standard ws s.toBlock, pending := later }

/-- R197: the block cannot hang: while every access to come is one the port carries, every step answers a
next state and takes exactly one access; with none to come the block is idle and holds its state (R170, log
entry 8). -/
def Obligations.EveryStepAnswers : Prop :=
  ∀ s : State, s.hostWf = true →
    ∃ t, step s = .next t ∧ t.pending = s.pending.tail ∧ t.hostWf = true ∧ (s.pending = [] → t = s)

/-! ## Encoding and the step function (`30_encoding.md`) -/

/-- R52: a CMD write is discarded with FAULT = 1; enters E_OPC on an illegal word; else runs the decoded
command, which starts with FAIL and ERR cleared and then runs its rule. The last clause is the pipeline's
placing of a word: the very next step runs it (log entry 9). -/
def Obligations.StepRunsTheDecodedCommand : Prop :=
  (∀ (s : State) (w : Word) (rest : List HostEvent), s.pending = cmdWrite w :: rest →
    (s.fault = true → step s = .next { s with pending := rest }) ∧
    (s.fault = false → ∀ why, decode w = .illegal why →
      step s = .next { s with toBlock := s.raiseFault .eOpc, pending := rest }) ∧
    (∀ i, decode w = .command i → step s = exec i { s with pending := rest }) ∧
    (s.fault = false → ∀ i, decode w = .command i →
      step s = .next { s with
        toBlock := ruleOf .standard i { s.toBlock with fail := false, err := .none }, pending := rest })) ∧
  ∀ (s : State) (w : Nat) (i : Instr), w < 2 ^ 32 → decodeTableWord 32 w = some i →
    step (s.withFetchWord 32 w) = exec i s

/-- R51, R54: decoding the encoding of any command gives the command back, with every operand. -/
def Obligations.DecodeInvertsEncode : Prop :=
  ∀ i : Instr, decode (encode i) = .command i

/-- R51: each legal word is the one encoding of its command, `W = op | (arg << 8)`. -/
def Obligations.EncodeInvertsDecode : Prop :=
  ∀ (w : Word) (i : Instr), decode w = .command i → encode i = w

/-- R53: a word encodes the command of a row exactly when `W & mask = match`; the rows are disjoint; the
high nibble of `op` groups the families. -/
def Obligations.DecodeAgreesWithTheOpcodeMap : Prop :=
  (∀ w, ∀ r ∈ opcodeTable, r.matchesWord w = true ↔ ∃ i, decode w = .command i ∧ i.op = r.op) ∧
  (∀ w, ∀ r ∈ opcodeTable, ∀ r' ∈ opcodeTable,
    r.matchesWord w = true → r'.matchesWord w = true → r = r') ∧
  (∀ op : Op, op.row ∈ opcodeTable ∧ op.row.op = op ∧ op.code.extractLsb' 4 4 = op.family.nibble)

/-- R54: exactly 256 + 32 + 2 + 11 = 301 words are legal. -/
def Obligations.ExactlyThreeHundredOneWordsAreLegal : Prop :=
  ∃ l : List Word, l.Nodup ∧ l.length = 301 ∧ ∀ w, w ∈ l ↔ ∃ i, decode w = .command i

/-- R55: the words no row of the opcode map matches are the illegal ones, and each of them, written to CMD
with FAULT = 0, is the E_OPC fault. -/
def Obligations.IllegalWordsAreTheOpcFault : Prop :=
  ∀ w : Word,
    ((∃ why, decode w = .illegal why) ↔ ∀ r ∈ opcodeTable, r.matchesWord w = false) ∧
    ((∃ why, decode w = .illegal why) ↔
      rsvField w ≠ 0 ∨ (∀ op : Op, opField w ≠ op.code) ∨
      (∃ op : Op, opField w = op.code ∧ op.row.mask.extractLsb' 8 8 &&& argField w ≠ 0)) ∧
    ∀ s : State, s.fault = false → (∃ why, decode w = .illegal why) →
      step (s.withNextCommand w) = .next { s with toBlock := s.raiseFault .eOpc }

/-- R60: the spec's encoding examples, legal and illegal. -/
def Obligations.SpecSampleWordsDecode : Prop :=
  decode 0x00000000 = .command .nop ∧ decode 0x00000001 = .command .iclr ∧
  decode 0x00005D02 = .command (.push 0x5d) ∧ decode 0x00000002 = .command (.push 0) ∧
  decode 0x0000FF02 = .command (.push 255) ∧ decode 0x00000003 = .command .mvoi ∧
  decode 0x00000010 = .command .b256to58 ∧ decode 0x00000011 = .command .b58to256 ∧
  decode 0x00000020 = .command .rg8to5 ∧ decode 0x00000021 = .command .rg5to8 ∧
  decode 0x00000030 = .command .pminit ∧ decode 0x00000031 = .command (.pmstep 0) ∧
  decode 0x00001F31 = .command (.pmstep 31) ∧ decode 0x00000032 = .command .pmabs ∧
  decode 0x00000033 = .command .pmhrp ∧ decode 0x00000034 = .command (.pmsum .bech32) ∧
  decode 0x00000134 = .command (.pmsum .bech32m) ∧ decode 0x00000035 = .command .pmvfy ∧
  ∀ w ∈ [0x00000004, 0x00000110, 0x00002031, 0x00000234, 0x00010000, (0xFFFFFFFF : Word)],
    ∃ why, decode w = .illegal why

/-- R58, R59: the assembler accepts a command line exactly when its operand is in range, and the line is
then the one CMD write of the command with that operand; a raw word is the one CMD write of the word; LOAD,
LOADS and PMZERO6 are their fixed expansions; RD is one read of the register it names; EXPECT and a blank line
put nothing on the bus. Then the text: names, numerals and forms as the spec's own programs write them, and a
comment. The bounds on a `.word`, a unit, a character, a window index and an expected value, and how text is
read beyond those examples, are the model's choice (log entry 15). -/
def Obligations.AssemblerExpandsLines : Prop :=
  (∀ op operand, operandOk op operand = true →
    ∃ i, instrOf op operand = some i ∧ i.op = op ∧
      (∀ n, operand = some (.num n) → i.arg.toNat = n) ∧ (∀ m, operand = some (.variant m) → i = .pmsum m) ∧
      assemble (.command op operand) = some [cmdWrite (encode i)]) ∧
  (∀ op operand, operandOk op operand = false →
    instrOf op operand = none ∧ assemble (.command op operand) = none) ∧
  (∀ w : Word, assemble (.word w.toNat) = some [cmdWrite w]) ∧
  (∀ n, 2 ^ 32 ≤ n → assemble (.word n) = none) ∧
  (∀ us : List Nat, (∀ n ∈ us, n < 256) →
    assemble (.load us) =
      some (cmdWrite (encode .iclr) :: us.map (fun n => cmdWrite (encode (.push (BitVec.ofNat 8 n)))))) ∧
  (∀ us : List Nat, (∃ n ∈ us, 256 ≤ n) → assemble (.load us) = none) ∧
  (∀ text : List Char, (∀ c ∈ text, c.toNat < 128) →
    assemble (.loads text) = assemble (.load (text.map Char.toNat))) ∧
  assemble .pmzero6 = some (List.replicate 6 (cmdWrite (encode (.pmstep 0)))) ∧
  (assemble (.rd .cmd) = some [.read .w32 0x00] ∧ assemble (.rd .status) = some [.read .w32 0x04] ∧
    assemble (.rd .ilen) = some [.read .w32 0x08] ∧ assemble (.rd .olen) = some [.read .w32 0x0C] ∧
    assemble (.rd .chk) = some [.read .w32 0x10] ∧
    ∀ i, i < 16384 → assemble (.rd (.ibuf i)) = some [.read .w32 (0x10000 + 4 * i)] ∧
      assemble (.rd (.obuf i)) = some [.read .w32 (0x20000 + 4 * i)]) ∧
  (∀ r n, r.wf = true → n < 2 ^ 32 → assemble (.expect r n) = some []) ∧ assemble .blank = some [] ∧
  (∀ op : Op, operandOk op none = true → parseLine (opText op).toList = some (.command op none)) ∧
  parseLine "PUSH 0x5d".toList = some (.command .push (some (.num 0x5d))) ∧
  parseLine "PUSH 255".toList = some (.command .push (some (.num 255))) ∧
  parseLine "PMSTEP 31".toList = some (.command .pmstep (some (.num 31))) ∧
  parseLine "PMSUM BECH32".toList = some (.command .pmsum (some (.variant .bech32))) ∧
  parseLine "PMSUM BECH32M".toList = some (.command .pmsum (some (.variant .bech32m))) ∧
  parseLine ".word 0xFFFFFFFF".toList = some (.word 0xFFFFFFFF) ∧
  parseLine "LOAD 10 28".toList = some (.load [10, 28]) ∧ parseLine "LOADS \"tb\"".toList = some (.loads ['t', 'b']) ∧
  parseLine "PMZERO6".toList = some .pmzero6 ∧ parseLine "RD OBUF[5]".toList = some (.rd (.obuf 5)) ∧
  parseLine "EXPECT OLEN = 6".toList = some (.expect .olen 6) ∧ parseLine [] = some .blank ∧
  ∀ line comment : List Char, parseLine (line ++ ';' :: comment) = parseLine line

/-! ## Buffer commands (`40_buffer_commands.md`) -/

/-- R70: NOP clears FAIL and ERR and changes nothing else; with FAULT = 1 it clears nothing. -/
def Obligations.NopClearsOnlyTheFailure : Prop :=
  ∀ s : State,
    (s.fault = false → exec .nop s = .next { s with fail := false, err := .none }) ∧
    (s.fault = true → exec .nop s = .next s)

/-- R71: ICLR empties IBUF and changes nothing else but FAIL and ERR. -/
def Obligations.IclrEmptiesTheInput : Prop :=
  ∀ s : State, s.fault = false →
    exec .iclr s = .next { s with ibuf := [], fail := false, err := .none }

/-- R72: PUSH appends one unit, or faults with E_OVF where IBUF is full: the rule for every BUF_CAP, and the
machine, which runs at the default 16384 of this OPEN parameter (R5, log entry 3). -/
def Obligations.PushAppendsOneUnit : Prop :=
  (∀ (cfg : Config) (u : Byte) (b : Block), b.fault = false →
    (b.ilen ≠ cfg.bufCap → wordEffect cfg (encode (.push u)) b =
      { b with ibuf := b.ibuf ++ [u], fail := false, err := .none }) ∧
    (b.ilen = cfg.bufCap → wordEffect cfg (encode (.push u)) b =
      { b with fault := true, fail := false, err := .fault .eOvf, obuf := [], var := .none })) ∧
  ∀ (u : Byte) (s : State), s.fault = false →
    (s.ilen ≠ 16384 →
      exec (.push u) s = .next { s with ibuf := s.ibuf ++ [u], fail := false, err := .none }) ∧
    (s.ilen = 16384 →
      exec (.push u) s = .next
        { s with fault := true, fail := false, err := .fault .eOvf, obuf := [], var := .none })

/-- R73: MVOI replaces IBUF by a copy of OBUF. -/
def Obligations.MvoiCopiesTheOutput : Prop :=
  ∀ s : State, s.fault = false →
    exec .mvoi s = .next { s with ibuf := s.obuf, fail := false, err := .none }

/-! ## Base Converter commands (`41_base_converter.md`) -/

/-- R81: the value of a digit sequence is the sum of its digits times the powers of the base, most
significant first. -/
def Obligations.ValueIsThePositionalSum : Prop :=
  ∀ (s : List Byte) (b : Nat),
    value s b = ∑ i : Fin s.length, s[i].toNat * b ^ (s.length - 1 - i) ∧
    ∀ d : Byte, value (s ++ [d]) b = value s b * b + d.toNat

/-- R82: the recursion of `digits`, and what it gives: no leading zero, the value, the length. -/
def Obligations.DigitsAreTheShortestSequence : Prop :=
  ∀ (n b : Nat), 2 ≤ b → b ≤ 256 →
    digits 0 b = [] ∧
    (0 < n → digits n b = digits (n / b) b ++ [BitVec.ofNat 8 (n % b)]) ∧
    value (digits n b) b = n ∧ (digits n b).head? ≠ some 0 ∧
    (0 < n → b ^ ((digits n b).length - 1) ≤ n ∧ n < b ^ (digits n b).length)

/-- R83: `lz` is the largest `z ≤ len(s)` such that the first `z` units are 0. -/
def Obligations.LeadingZerosAreCounted : Prop :=
  ∀ s : List Byte, lz s ≤ s.length ∧ (∀ i, i < lz s → s[i]? = some 0) ∧
    ∀ z, z ≤ s.length → (∀ i, i < z → s[i]? = some 0) → z ≤ lz s

/-- R84, R90: a conversion keeps the count of leading zeros and the value, gives digits of the target base,
and is the only sequence that does. -/
def Obligations.ConversionKeepsZerosAndValue : Prop :=
  ∀ (s : List Byte) (f t : Nat), (f = 256 ∧ t = 58) ∨ (f = 58 ∧ t = 256) →
    (∀ u ∈ s, u.toNat < f) →
    lz (convertBase s f t) = lz s ∧ value (convertBase s f t) t = value s f ∧
    (∀ u ∈ convertBase s f t, u.toNat < t) ∧
    (lz s = 0 → s ≠ [] → lz (convertBase s f t) = 0 ∧ convertBase s f t ≠ []) ∧
    convertBase [] f t = [] ∧
    ∀ r : List Byte, lz r = lz s → value r t = value s f → (∀ u ∈ r, u.toNat < t) → r = convertBase s f t

/-- R85: B256TO58 with every case: E_LEN past 8192 units, else OBUF is the converted input. -/
def Obligations.B256to58Converts : Prop :=
  ∀ s : State, s.fault = false →
    (s.ilen ≤ 8192 →
      exec .b256to58 s = .next { s with
        obuf := List.replicate (lz s.ibuf) 0 ++ digits (value s.ibuf 256) 58, fail := false, err := .none }) ∧
    (8192 < s.ilen →
      exec .b256to58 s = .next
        { s with fault := true, fail := false, err := .fault .eLen, obuf := [], var := .none })

/-- R86: B58TO256 with every case: E_LEN, then E_UNIT, else OBUF is the converted input. -/
def Obligations.B58to256Converts : Prop :=
  ∀ s : State, s.fault = false →
    (s.ilen ≤ 8192 → (∀ u ∈ s.ibuf, u.toNat < 58) →
      exec .b58to256 s = .next { s with
        obuf := List.replicate (lz s.ibuf) 0 ++ digits (value s.ibuf 58) 256, fail := false, err := .none }) ∧
    (s.ilen ≤ 8192 → (∃ u ∈ s.ibuf, 58 ≤ u.toNat) →
      exec .b58to256 s = .next
        { s with fault := true, fail := false, err := .fault .eUnit, obuf := [], var := .none }) ∧
    (8192 < s.ilen →
      exec .b58to256 s = .next
        { s with fault := true, fail := false, err := .fault .eLen, obuf := [], var := .none })

/-- R88: the exact maxima of the output length on 8192 input units, and that they are reached. The 5999 of
B58TO256 bounds inputs without leading zeros; with them the output is at most as long as the input (log
entry 11). -/
def Obligations.ConversionOutputFits : Prop :=
  (∀ s : List Byte, s.length ≤ 8192 → (convertBase s 256 58).length ≤ 11188) ∧
  (∀ s : List Byte, s.length ≤ 8192 → (∀ u ∈ s, u.toNat < 58) → (convertBase s 58 256).length ≤ s.length ∧
    (lz s = 0 → (convertBase s 58 256).length ≤ 5999)) ∧
  (convertBase (List.replicate 8192 255) 256 58).length = 11188 ∧
  (convertBase (List.replicate 8192 57) 58 256).length = 5999

/-- R91: the two conversions are inverse, and so are the commands `LOAD b; B256TO58; MVOI; B58TO256`, under
every admissible configuration, where the intermediate length is admitted; where it is not, the last command
is the E_LEN fault. -/
def Obligations.ConverterRoundTrip : Prop :=
  (∀ b : List Byte, b.length ≤ 8192 → convertBase (convertBase b 256 58) 58 256 = b) ∧
  (∀ d : List Byte, (∀ u ∈ d, u.toNat < 58) → convertBase (convertBase d 58 256) 256 58 = d) ∧
  ∀ (cfg : Config) (b : List Byte) (s : Block), cfg.wf = true → s.fault = false → b.length ≤ 8192 →
    let t := runWords cfg (loadWords b ++ [encode .b256to58, encode .mvoi, encode .b58to256]) s
    ((convertBase b 256 58).length ≤ 8192 → t.obuf = b ∧ t.fault = false ∧ t.fail = false) ∧
    (8192 < (convertBase b 256 58).length → t.fault = true ∧ t.err = .fault .eLen ∧ t.obuf = [])

/-- R89: the reference algorithm gives the result of the definition. -/
def Obligations.ReferenceConverterAgrees : Prop :=
  ∀ (s : List Byte) (f t : Nat), (f = 256 ∧ t = 58) ∨ (f = 58 ∧ t = 256) →
    (∀ u ∈ s, u.toNat < f) → convertRef s f t = convertBase s f t

/-! ## Bit Regrouper commands (`42_bit_regrouper.md`) -/

/-- R100: bit `w·i + t` of the stream is bit `w-1-t` of unit `i`; the stream is the number the units stand
for in base `2^w`. -/
def Obligations.BitstreamIsMsbFirst : Prop :=
  ∀ (w : Nat) (s : List (BitVec w)), w = 5 ∨ w = 8 →
    (bitstream s).length = w * s.length ∧
    (∀ (i t : Nat) (hi : i < s.length), t < w → (bitstream s)[w * i + t]? = some (s[i].getLsbD (w - 1 - t))) ∧
    bitsValue (bitstream s) = value s (2 ^ w)

/-- R101: the quintets of a byte sequence, group by group of the padded stream, and the closed form. -/
def Obligations.RegroupingBytesPadsWithZeros : Prop :=
  ∀ s : List Byte,
    let p := 5 * ((8 * s.length + 4) / 5) - 8 * s.length
    let b := bitstream s ++ List.replicate p false
    p ≤ 4 ∧ p = [0, 2, 4, 1, 3].getD (s.length % 5) 0 ∧ (regroup8to5 s).length = (8 * s.length + 4) / 5 ∧
    (∀ j, j < (8 * s.length + 4) / 5 →
      ((regroup8to5 s)[j]?).map BitVec.toNat = some ((b.getD (5 * j) false).toNat * 16 +
        (b.getD (5 * j + 1) false).toNat * 8 + (b.getD (5 * j + 2) false).toNat * 4 +
        (b.getD (5 * j + 3) false).toNat * 2 + (b.getD (5 * j + 4) false).toNat)) ∧
    value (regroup8to5 s) 32 = value s 256 * 2 ^ p

/-- R102: RG8TO5 with every case: the rule for every RG8_MAX, and the machine, which runs at the default 10240
of this OPEN parameter (R5, log entry 3). -/
def Obligations.Rg8to5Regroups : Prop :=
  (∀ (cfg : Config) (b : Block), b.fault = false →
    (b.ilen ≤ cfg.rg8Max → wordEffect cfg (encode .rg8to5) b =
      { b with obuf := (regroup8to5 b.ibuf).map (fun v => v.setWidth 8), fail := false, err := .none }) ∧
    (cfg.rg8Max < b.ilen → wordEffect cfg (encode .rg8to5) b =
      { b with fault := true, fail := false, err := .fault .eLen, obuf := [], var := .none })) ∧
  ∀ s : State, s.fault = false →
    (s.ilen ≤ 10240 → ∃ q : List Quintet, q = regroup8to5 s.ibuf ∧ q.length = (8 * s.ilen + 4) / 5 ∧
      exec .rg8to5 s = .next
        { s with obuf := q.map (fun v => v.setWidth 8), fail := false, err := .none }) ∧
    (10240 < s.ilen →
      exec .rg8to5 s = .next
        { s with fault := true, fail := false, err := .fault .eLen, obuf := [], var := .none })

/-- R103: which of the three results `regroup_5to8` gives, by the leftover bits, and the bytes, by the bits
of the stream; then the closed form over the number the quintets stand for. -/
def Obligations.RegroupingQuintetsChecksTheLeftover : Prop :=
  ∀ (cfg : Config) (s : List Quintet),
    let k := 5 * s.length / 8
    let r := 5 * s.length % 8
    let b := bitstream s
    (cfg.leftoverLimit ≤ r → regroup5to8 cfg s = .excess) ∧
    (r < cfg.leftoverLimit → (∃ t, 8 * k ≤ t ∧ t < 5 * s.length ∧ b[t]? = some true) →
      regroup5to8 cfg s = .pad) ∧
    (r < cfg.leftoverLimit → (¬ ∃ t, 8 * k ≤ t ∧ t < 5 * s.length ∧ b[t]? = some true) →
      ∃ o : List Byte, regroup5to8 cfg s = .bytes o ∧ o.length = k ∧
        (∀ j, j < k → o[j]? = some (BitVec.ofNat 8 (bitsValue ((b.drop (8 * j)).take 8)))) ∧
        value o 256 = value s 32 / 2 ^ r) ∧
    ((∃ t, 8 * k ≤ t ∧ t < 5 * s.length ∧ b[t]? = some true) ↔ value s 32 % 2 ^ r ≠ 0)

/-- R104: RG5TO8 with every case, in the order of its checks: the rule for every RG5_MAX and every leftover
limit, and the machine, which runs at the defaults 16384 and 5 of these OPEN parameters (R5, log entry 3). -/
def Obligations.Rg5to8Regroups : Prop :=
  (∀ (cfg : Config) (b : Block), b.fault = false →
    (b.ilen ≤ cfg.rg5Max → (∀ u ∈ b.ibuf, u.toNat < 32) →
      wordEffect cfg (encode .rg5to8) b =
        match regroup5to8 cfg (b.ibuf.map (fun u => u.setWidth 5)) with
        | .bytes o => { b with obuf := o, fail := false, err := .none }
        | .excess => { b with obuf := [], fail := true, err := .fail .eExcess }
        | .pad => { b with obuf := [], fail := true, err := .fail .ePad }) ∧
    (b.ilen ≤ cfg.rg5Max → (∃ u ∈ b.ibuf, 32 ≤ u.toNat) → wordEffect cfg (encode .rg5to8) b =
      { b with fault := true, fail := false, err := .fault .eUnit, obuf := [], var := .none }) ∧
    (cfg.rg5Max < b.ilen → wordEffect cfg (encode .rg5to8) b =
      { b with fault := true, fail := false, err := .fault .eLen, obuf := [], var := .none })) ∧
  ∀ s : State, s.fault = false →
    (s.ilen ≤ 16384 → (∀ u ∈ s.ibuf, u.toNat < 32) →
      (∀ o, regroup5to8 .standard (s.ibuf.map (fun u => u.setWidth 5)) = .bytes o →
        o.length = 5 * s.ilen / 8 ∧
        exec .rg5to8 s = .next { s with obuf := o, fail := false, err := .none }) ∧
      (regroup5to8 .standard (s.ibuf.map (fun u => u.setWidth 5)) = .excess →
        exec .rg5to8 s = .next { s with obuf := [], fail := true, err := .fail .eExcess }) ∧
      (regroup5to8 .standard (s.ibuf.map (fun u => u.setWidth 5)) = .pad →
        exec .rg5to8 s = .next { s with obuf := [], fail := true, err := .fail .ePad })) ∧
    (s.ilen ≤ 16384 → (∃ u ∈ s.ibuf, 32 ≤ u.toNat) →
      exec .rg5to8 s = .next
        { s with fault := true, fail := false, err := .fault .eUnit, obuf := [], var := .none }) ∧
    (16384 < s.ilen →
      exec .rg5to8 s = .next
        { s with fault := true, fail := false, err := .fault .eLen, obuf := [], var := .none })

/-- R105: the leftover count depends on the length only; with the limit 5 the lengths 1, 3, 6 mod 8 are
E_EXCESS and no other, with the limit 8 none is; a length 0 mod 8 always gives bytes, under any limit; and the
lengths byte sequences regroup to are exactly those of residue 0, 2, 4, 5, 7. -/
def Obligations.LeftoverDependsOnTheLengthOnly : Prop :=
  (∀ n, 5 * n % 8 = [0, 5, 2, 7, 4, 1, 6, 3].getD (n % 8) 0) ∧
  (∀ (cfg : Config) (s : List Quintet), cfg.leftoverLimit = 5 →
    (regroup5to8 cfg s = .excess ↔ s.length % 8 ∈ [1, 3, 6])) ∧
  (∀ (cfg : Config) (s : List Quintet), cfg.leftoverLimit = 8 → regroup5to8 cfg s ≠ .excess) ∧
  (∀ (cfg : Config) (s : List Quintet), 1 ≤ cfg.leftoverLimit → s.length % 8 = 0 →
    ∃ o, regroup5to8 cfg s = .bytes o) ∧
  (∀ n, n % 8 ∈ [0, 2, 4, 5, 7] ↔ ∃ b : List Byte, (regroup8to5 b).length = n)

/-- R106: the accumulator form gives the results of the definitions. -/
def Obligations.ReferenceRegrouperAgrees : Prop :=
  (∀ s : List Byte, regroupRef8to5 s = regroup8to5 s) ∧
  (∀ (cfg : Config) (s : List Quintet), regroupRef5to8 cfg s = regroup5to8 cfg s)

/-- R109: the inverse law, of the functions and of the commands `LOAD b; RG8TO5; MVOI; RG5TO8` under every
admissible configuration, for every limit of 5 or more; and in the other direction for every limit of 5 or
less. The normative limit 5 has both. -/
def Obligations.RegroupingIsInverted : Prop :=
  ∀ cfg : Config,
    (5 ≤ cfg.leftoverLimit → ∀ b : List Byte, regroup5to8 cfg (regroup8to5 b) = .bytes b) ∧
    (cfg.leftoverLimit ≤ 5 →
      ∀ (q : List Quintet) (b : List Byte), regroup5to8 cfg q = .bytes b → regroup8to5 b = q) ∧
    (5 ≤ cfg.leftoverLimit → cfg.wf = true →
      ∀ (b : List Byte) (s : Block), s.fault = false → b.length ≤ cfg.rg8Max →
        let t := runWords cfg (loadWords b ++ [encode .rg8to5, encode .mvoi, encode .rg5to8]) s
        t.obuf = b ∧ t.fail = false ∧ t.fault = false)

/-! ## Polymod commands (`43_polymod.md`) -/

/-- R121: one step of the register, on naturals, for any constants. -/
def Obligations.PolymodStepFormula : Prop :=
  ∀ (cfg : Config) (c : Chk) (v : Quintet),
    (pmStep cfg c v).toNat =
      (List.finRange 5).foldl
        (fun (x : Nat) (i : Fin 5) => if (c.toNat >>> 25).testBit i.val then x ^^^ cfg.gen[i].toNat else x)
        (((c.toNat &&& 0x01ffffff) <<< 5) ^^^ v.toNat)

/-- R122, R128: the single steps that isolate each constant, for any constants, and the five defaults with
their pairing to the bits of `top` (PRESUMED by the spec, log entry 4). -/
def Obligations.SingleStepsIsolateTheConstants : Prop :=
  (∀ (cfg : Config) (i : Fin 5), pmStep cfg (1#30 <<< (25 + i.val)) 0 = cfg.gen[i]) ∧
  (List.finRange 5).map (fun i => pmStep .standard (1#30 <<< (25 + i.val)) 0) =
    [0x3b6a57b2, 0x26508e6d, 0x1ea119fa, 0x3d4233dd, 0x2a1462b3]

/-- R123: absorbing in pieces is absorbing whole. -/
def Obligations.AbsorbingInPieces : Prop :=
  ∀ (cfg : Config) (c : Chk) (v : Quintet) (s t : List Quintet),
    pmAbsorb cfg c [] = c ∧ pmAbsorb cfg c ([v] ++ s) = pmAbsorb cfg (pmStep cfg c v) s ∧
    pmAbsorb cfg c (s ++ t) = pmAbsorb cfg (pmAbsorb cfg c s) t

/-- R124: the shape of the expansion. -/
def Obligations.HrpExpansionShape : Prop :=
  ∀ s : List Byte,
    (hrpExpand s).length = 2 * s.length + 1 ∧ (hrpExpand s)[s.length]? = some 0 ∧
    ∀ (i : Nat) (hi : i < s.length),
      ((hrpExpand s)[i]?).map BitVec.toNat = some (s[i].toNat >>> 5) ∧
      ((hrpExpand s)[s.length + 1 + i]?).map BitVec.toNat = some (s[i].toNat &&& 31)

/-- R125: linearity over GF(2), and the two consequences the rule draws, for any constants. -/
def Obligations.PolymodIsLinear : Prop :=
  ∀ cfg : Config,
    (∀ (a b : Chk) (v w : Quintet), pmStep cfg (a ^^^ b) (v ^^^ w) = pmStep cfg a v ^^^ pmStep cfg b w) ∧
    (∀ (c : Chk) (v : Quintet), pmStep cfg c v = pmStep cfg c 0 ^^^ v.setWidth 30) ∧
    (∀ (c : Chk) (x : List Quintet), x.length = 6 →
      pmAbsorb cfg c x = pmAbsorb cfg c (List.replicate 6 0) ^^^ BitVec.ofNat 30 (value x 32)) ∧
    pmStep cfg 0 0 = 0

/-- R126: `pack6(m)[i] = (m >> (5 · (5 - i))) & 31`, and `value(pack6(m), 32) = m`. -/
def Obligations.PackedChecksumHasTheValue : Prop :=
  ∀ m : Chk, (pack6 m).length = 6 ∧ value (pack6 m) 32 = m.toNat ∧
    ∀ i, i ≤ 5 → ((pack6 m)[i]?).map BitVec.toNat = some ((m.toNat >>> (5 * (5 - i))) &&& 31)

/-- R127: PMINIT. -/
def Obligations.PminitSeedsTheRegister : Prop :=
  ∀ s : State, s.fault = false →
    exec .pminit s = .next { s with chk := 1, var := .none, fail := false, err := .none }

/-- R128: PMSTEP v. -/
def Obligations.PmstepAbsorbsItsQuintet : Prop :=
  ∀ (v : Quintet) (s : State), s.fault = false →
    exec (.pmstep v) s = .next { s with chk := pmStep .standard s.chk v, fail := false, err := .none }

/-- R129: PMABS with every case: a faulting PMABS leaves CHK as it was. -/
def Obligations.PmabsAbsorbsTheInput : Prop :=
  ∀ s : State, s.fault = false →
    ((∀ u ∈ s.ibuf, u.toNat < 32) →
      exec .pmabs s = .next { s with
        chk := pmAbsorb .standard s.chk (s.ibuf.map (fun u => u.setWidth 5)), fail := false, err := .none }) ∧
    ((∃ u ∈ s.ibuf, 32 ≤ u.toNat) →
      exec .pmabs s = .next
        { s with fault := true, fail := false, err := .fault .eUnit, obuf := [], var := .none })

/-- R130: PMHRP, which admits any bytes. -/
def Obligations.PmhrpAbsorbsTheExpansion : Prop :=
  ∀ s : State, s.fault = false →
    exec .pmhrp s = .next { s with
      chk := pmAbsorb .standard s.chk (hrpExpand s.ibuf), fail := false, err := .none }

/-- R131: PMSUM m: CHK holds the register before the XOR with the variant's constant, OBUF the six quintets
after it. -/
def Obligations.PmsumWritesTheChecksum : Prop :=
  ∀ (m : Variant) (s : State), s.fault = false →
    ∃ (c k : Chk) (o : List Byte),
      exec (.pmsum m) s = .next { s with chk := c, obuf := o, fail := false, err := .none } ∧
      c = pmAbsorb .standard s.chk [0, 0, 0, 0, 0, 0] ∧
      k = (if m = .bech32 then 0x00000001 else 0x2BC830A3) ∧
      o = (pack6 (c ^^^ k)).map (fun q => q.setWidth 8) ∧ o.length = 6

/-- R132: PMVFY with every case; it never touches OBUF. -/
def Obligations.PmvfyComparesBothConstants : Prop :=
  ∀ s : State, s.fault = false →
    (s.chk = 0x00000001 → exec .pmvfy s = .next { s with var := .bech32, fail := false, err := .none }) ∧
    (s.chk = 0x2BC830A3 → exec .pmvfy s = .next { s with var := .bech32m, fail := false, err := .none }) ∧
    (s.chk ≠ 0x00000001 → s.chk ≠ 0x2BC830A3 →
      exec .pmvfy s = .next { s with var := .none, fail := true, err := .fail .eCsum })

/-- R133: the command sequence of a checksum creation, from any state that has no fault, and the same without
`LOAD d; PMABS` where there is no data. -/
def Obligations.CreationSequenceGivesTheChecksum : Prop :=
  ∀ (cfg : Config) (h : List Byte) (m : Variant) (s : Block), s.fault = false → h.length ≤ cfg.bufCap →
    (∀ d : List Quintet, d.length ≤ cfg.bufCap →
      let t := runWords cfg (creationWords h d m) s
      t.fault = false ∧ t.fail = false ∧
      t.obuf = ofQuintets
        (pack6 (pmAbsorb cfg 1 (hrpExpand h ++ d ++ List.replicate 6 0) ^^^ variantConst m))) ∧
    let t := runWords cfg ([encode .pminit] ++ loadWords h ++ [encode .pmhrp, encode (.pmsum m)]) s
    t.fault = false ∧ t.fail = false ∧
    t.obuf = ofQuintets
      (pack6 (pmAbsorb cfg 1 (hrpExpand h ++ List.replicate 6 0) ^^^ variantConst m))

/-- R134: the command sequence of a checksum verification, from any state that has no fault. -/
def Obligations.VerificationSequenceGivesTheVerdict : Prop :=
  ∀ (cfg : Config) (h : List Byte) (x : List Quintet) (s : Block), s.fault = false →
    h.length ≤ cfg.bufCap → x.length ≤ cfg.bufCap →
    let t := runWords cfg (verificationWords h x) s
    let c := pmAbsorb cfg 1 (hrpExpand h ++ x)
    t.fault = false ∧ t.chk = c ∧
    (c = constBech32 → t.var = .bech32 ∧ t.fail = false) ∧
    (c = constBech32m → t.var = .bech32m ∧ t.fail = false) ∧
    (c ≠ constBech32 → c ≠ constBech32m → t.var = .none ∧ t.fail = true ∧ t.err = .fail .eCsum)

/-- R135: a checksum made by PMSUM with variant `m` verifies as variant `m`, for any constants: as a law of
the functions; of the commands, where a block that holds the output of PMSUM as its input and has the register
PMSUM started from runs `PMABS; PMVFY`; and of the whole sequences of R133 and R134. -/
def Obligations.CreatedChecksumVerifies : Prop :=
  ∀ (cfg : Config) (m : Variant),
    (∀ (c k : Chk), pmAbsorb cfg c (pack6 (pmAbsorb cfg c (List.replicate 6 0) ^^^ k)) = k) ∧
    (∀ s t : Block, s.fault = false → t.fault = false →
      t.chk = s.chk → t.ibuf = (wordEffect cfg (encode (.pmsum m)) s).obuf →
      let u := runWords cfg [encode .pmabs, encode .pmvfy] t
      u.fault = false ∧ u.fail = false ∧ u.var = (if m = .bech32 then .bech32 else .bech32m)) ∧
    ∀ (h : List Byte) (d : List Quintet) (s t : Block), s.fault = false → t.fault = false →
      h.length ≤ cfg.bufCap → d.length + 6 ≤ cfg.bufCap →
      let x := toQuintets (runWords cfg (creationWords h d m) s).obuf
      let u := runWords cfg (verificationWords h (d ++ x)) t
      u.fault = false ∧ u.fail = false ∧ u.var = (if m = .bech32 then .bech32 else .bech32m)

/-! ## Faults and failures (`60_exceptions.md`) -/

/-- R151, R152, R153, R155: for every configuration, command and state with FAULT = 0, the command faults
or fails exactly by the conditions of the table, in its order, with exactly the state of fault or failure
entry; where no condition holds it ends with both flags and ERR clear. -/
def Obligations.CommandsFaultAndFailByTheTable : Prop :=
  ∀ (cfg : Config) (w : Word) (s : Block), s.fault = false →
    ((∃ why, decode w = .illegal why) → wordEffect cfg w s =
      { s with fault := true, fail := false, err := .fault .eOpc, obuf := [], var := .none }) ∧
    ∀ i, decode w = .command i →
      (∀ c, faultCause cfg i s = some c → wordEffect cfg w s =
        { s with fault := true, fail := false, err := .fault c, obuf := [], var := .none }) ∧
      (∀ c, faultCause cfg i s = none → failCause cfg i s = some c → wordEffect cfg w s =
        { s with fail := true, err := .fail c,
                 obuf := if c = .eCsum then s.obuf else [],
                 var := if c = .eCsum then .none else s.var }) ∧
      (faultCause cfg i s = none → failCause cfg i s = none →
        (wordEffect cfg w s).fault = false ∧ (wordEffect cfg w s).fail = false ∧
        (wordEffect cfg w s).err = .none)

/-- R158: no step leaves a fault but reset; while FAULT = 1 every CMD write, legal or not, leaves the block
as it was, and reads still work. -/
def Obligations.FaultIsLeftByResetOnly : Prop :=
  ∀ s : State, s.fault = true →
    (∀ i, exec i s = .next s) ∧
    (∀ w rest, s.pending = cmdWrite w :: rest → step s = .next { s with pending := rest }) ∧
    (∀ off rest, s.pending = .read .w32 off :: rest → accessWf .w32 off = true →
      step s = .next { s with pending := rest, answers := s.answers ++ [regRead .standard s.toBlock off] }) ∧
    (∀ t, step s = .next t → s.pending.head? ≠ some .reset → t.fault = true ∧ t.err = s.err)

/-- R154: FAIL and ERR describe the most recent accepted command only: what a command leaves of the block
does not depend on the FAIL and ERR it found, and VAR outlives every command but PMINIT, PMVFY and a fault. -/
def Obligations.FailureIsForgottenByTheNextCommand : Prop :=
  ∀ (i : Instr) (s : State) (f : Bool) (e : Err), s.fault = false →
    exec i { s with fail := f, err := e } = exec i s ∧
    ∃ t, exec i s = .next t ∧
      (i ≠ .pminit → i ≠ .pmvfy → t.fault = false → t.var = s.var)

/-- R157: the empty input is valid for every command: an empty output, an unchanged register, or the lone
separator. -/
def Obligations.EmptyInputIsValid : Prop :=
  ∀ s : State, s.fault = false → s.ibuf = [] →
    (∀ i, ∃ t, exec i s = .next t ∧ t.fault = false) ∧
    (∀ i, i = .b256to58 ∨ i = .b58to256 ∨ i = .rg8to5 ∨ i = .rg5to8 →
      exec i s = .next { s with obuf := [], fail := false, err := .none }) ∧
    exec .pmabs s = .next { s with fail := false, err := .none } ∧
    exec .pmhrp s = .next { s with chk := pmStep .standard s.chk 0, fail := false, err := .none }

/-! ## Reset (`70_reset_and_hazards.md`) -/

/-- R160, R180, R181: reset puts the block in the reset state whatever it was in; what the host holds is
the model's own (log entry 1). -/
def Obligations.ResetWinsFromAnyState : Prop :=
  ∀ (s : State) (rest : List HostEvent), s.pending = .reset :: rest →
    step s = .next
      { ibuf := [], obuf := [], chk := 0x00000001, fault := false, fail := false, err := .none, var := .none,
        pending := rest, answers := s.answers }
end

