-- ==== Sys2Proof/Laws/State.lean ====
section
/-! SUPPORT. One lemma per field per named update of the block and of the machine, each true by unfolding. -/

namespace Sys2Proof.Machine

section block

variable (s : Block)

/-! `IBUF <- us` -/

@[simp] theorem Block.setIbuf_ibuf (us : List Byte) : (s.setIbuf us).ibuf = us := by rfl
@[simp] theorem Block.setIbuf_obuf (us : List Byte) : (s.setIbuf us).obuf = s.obuf := by rfl
@[simp] theorem Block.setIbuf_chk (us : List Byte) : (s.setIbuf us).chk = s.chk := by rfl
@[simp] theorem Block.setIbuf_fault (us : List Byte) : (s.setIbuf us).fault = s.fault := by rfl
@[simp] theorem Block.setIbuf_fail (us : List Byte) : (s.setIbuf us).fail = s.fail := by rfl
@[simp] theorem Block.setIbuf_err (us : List Byte) : (s.setIbuf us).err = s.err := by rfl
@[simp] theorem Block.setIbuf_var (us : List Byte) : (s.setIbuf us).var = s.var := by rfl

/-! `OBUF <- us` -/

@[simp] theorem Block.setObuf_ibuf (us : List Byte) : (s.setObuf us).ibuf = s.ibuf := by rfl
@[simp] theorem Block.setObuf_obuf (us : List Byte) : (s.setObuf us).obuf = us := by rfl
@[simp] theorem Block.setObuf_chk (us : List Byte) : (s.setObuf us).chk = s.chk := by rfl
@[simp] theorem Block.setObuf_fault (us : List Byte) : (s.setObuf us).fault = s.fault := by rfl
@[simp] theorem Block.setObuf_fail (us : List Byte) : (s.setObuf us).fail = s.fail := by rfl
@[simp] theorem Block.setObuf_err (us : List Byte) : (s.setObuf us).err = s.err := by rfl
@[simp] theorem Block.setObuf_var (us : List Byte) : (s.setObuf us).var = s.var := by rfl

/-! `CHK <- c` -/

@[simp] theorem Block.setChk_ibuf (c : Chk) : (s.setChk c).ibuf = s.ibuf := by rfl
@[simp] theorem Block.setChk_obuf (c : Chk) : (s.setChk c).obuf = s.obuf := by rfl
@[simp] theorem Block.setChk_chk (c : Chk) : (s.setChk c).chk = c := by rfl
@[simp] theorem Block.setChk_fault (c : Chk) : (s.setChk c).fault = s.fault := by rfl
@[simp] theorem Block.setChk_fail (c : Chk) : (s.setChk c).fail = s.fail := by rfl
@[simp] theorem Block.setChk_err (c : Chk) : (s.setChk c).err = s.err := by rfl
@[simp] theorem Block.setChk_var (c : Chk) : (s.setChk c).var = s.var := by rfl

/-! `VAR <- v` -/

@[simp] theorem Block.setVar_ibuf (v : Var) : (s.setVar v).ibuf = s.ibuf := by rfl
@[simp] theorem Block.setVar_obuf (v : Var) : (s.setVar v).obuf = s.obuf := by rfl
@[simp] theorem Block.setVar_chk (v : Var) : (s.setVar v).chk = s.chk := by rfl
@[simp] theorem Block.setVar_fault (v : Var) : (s.setVar v).fault = s.fault := by rfl
@[simp] theorem Block.setVar_fail (v : Var) : (s.setVar v).fail = s.fail := by rfl
@[simp] theorem Block.setVar_err (v : Var) : (s.setVar v).err = s.err := by rfl
@[simp] theorem Block.setVar_var (v : Var) : (s.setVar v).var = v := by rfl

/-! the clean start of a command -/

@[simp] theorem Block.startClean_ibuf : (s.startClean).ibuf = s.ibuf := by rfl
@[simp] theorem Block.startClean_obuf : (s.startClean).obuf = s.obuf := by rfl
@[simp] theorem Block.startClean_chk : (s.startClean).chk = s.chk := by rfl
@[simp] theorem Block.startClean_fault : (s.startClean).fault = s.fault := by rfl
@[simp] theorem Block.startClean_fail : (s.startClean).fail = false := by rfl
@[simp] theorem Block.startClean_err : (s.startClean).err = .none := by rfl
@[simp] theorem Block.startClean_var : (s.startClean).var = s.var := by rfl

/-! fault entry -/

@[simp] theorem Block.raiseFault_ibuf (c : FaultCode) : (s.raiseFault c).ibuf = s.ibuf := by rfl
@[simp] theorem Block.raiseFault_obuf (c : FaultCode) : (s.raiseFault c).obuf = [] := by rfl
@[simp] theorem Block.raiseFault_chk (c : FaultCode) : (s.raiseFault c).chk = s.chk := by rfl
@[simp] theorem Block.raiseFault_fault (c : FaultCode) : (s.raiseFault c).fault = true := by rfl
@[simp] theorem Block.raiseFault_fail (c : FaultCode) : (s.raiseFault c).fail = false := by rfl
@[simp] theorem Block.raiseFault_err (c : FaultCode) : (s.raiseFault c).err = .fault c := by rfl
@[simp] theorem Block.raiseFault_var (c : FaultCode) : (s.raiseFault c).var = .none := by rfl

/-! failure entry -/

@[simp] theorem Block.failEntry_ibuf (c : FailCode) : (s.failEntry c).ibuf = s.ibuf := by cases c <;> rfl
@[simp] theorem Block.failEntry_chk (c : FailCode) : (s.failEntry c).chk = s.chk := by cases c <;> rfl
@[simp] theorem Block.failEntry_fault (c : FailCode) : (s.failEntry c).fault = s.fault := by cases c <;> rfl
@[simp] theorem Block.failEntry_fail (c : FailCode) : (s.failEntry c).fail = true := by cases c <;> rfl
@[simp] theorem Block.failEntry_err (c : FailCode) : (s.failEntry c).err = .fail c := by cases c <;> rfl
@[simp] theorem Block.failEntry_eExcess_obuf : (s.failEntry .eExcess).obuf = [] := by rfl
@[simp] theorem Block.failEntry_ePad_obuf : (s.failEntry .ePad).obuf = [] := by rfl
@[simp] theorem Block.failEntry_eCsum_obuf : (s.failEntry .eCsum).obuf = s.obuf := by rfl
@[simp] theorem Block.failEntry_eExcess_var : (s.failEntry .eExcess).var = s.var := by rfl
@[simp] theorem Block.failEntry_ePad_var : (s.failEntry .ePad).var = s.var := by rfl
@[simp] theorem Block.failEntry_eCsum_var : (s.failEntry .eCsum).var = .none := by rfl

/-! the fill counts, as lengths -/

theorem Block.ilen_eq : s.ilen = s.ibuf.length := by rfl
theorem Block.olen_eq : s.olen = s.obuf.length := by rfl
@[simp] theorem Block.startClean_ilen : s.startClean.ilen = s.ilen := by rfl
@[simp] theorem Block.startClean_olen : s.startClean.olen = s.olen := by rfl

/-- Raising a fault assigns all that the clean start assigns (R152, its last sentence). -/
@[simp] theorem Block.startClean_raiseFault (c : FaultCode) :
    s.startClean.raiseFault c = s.raiseFault c := by rfl

/-- The clean start changes nothing in a state without a failure and without a code. -/
theorem Block.startClean_of_clean (hf : s.fail = false) (he : s.err = .none) : s.startClean = s := by
  cases s; simp_all [Block.startClean]

end block

section machine

variable (s : State)

/-! something happens in the block -/

@[simp] theorem State.onBlock_toBlock (f : Block → Block) : (s.onBlock f).toBlock = f s.toBlock := by rfl
@[simp] theorem State.onBlock_pending (f : Block → Block) : (s.onBlock f).pending = s.pending := by rfl
@[simp] theorem State.onBlock_answers (f : Block → Block) : (s.onBlock f).answers = s.answers := by rfl

/-! reset -/

@[simp] theorem State.afterReset_toBlock : (s.afterReset).toBlock = .reset := by rfl
@[simp] theorem State.afterReset_pending : (s.afterReset).pending = s.pending := by rfl
@[simp] theorem State.afterReset_answers : (s.afterReset).answers = s.answers := by rfl

/-! a read's answer -/

@[simp] theorem State.pushAnswer_toBlock (v : Word) : (s.pushAnswer v).toBlock = s.toBlock := by rfl
@[simp] theorem State.pushAnswer_pending (v : Word) : (s.pushAnswer v).pending = s.pending := by rfl
@[simp] theorem State.pushAnswer_answers (v : Word) : (s.pushAnswer v).answers = s.answers ++ [v] := by rfl

/-! the placing of a command word -/

@[simp] theorem State.withNextCommand_toBlock (w : Word) : (s.withNextCommand w).toBlock = s.toBlock := by rfl
@[simp] theorem State.withNextCommand_pending (w : Word) : (s.withNextCommand w).pending = cmdWrite w :: s.pending := by rfl
@[simp] theorem State.withNextCommand_answers (w : Word) : (s.withNextCommand w).answers = s.answers := by rfl

end machine

end Sys2Proof.Machine
end

