-- ==== Sys2Proof/Laws/BaseConverter.lean ====
section
/-! SUPPORT. The functions of the Base Converter, unfolded once: `value` by its last and by its first
digit, `digitsOnto` by its tail, `lz` by its first unit. -/

namespace Sys2Proof.Machine

variable {w : Nat}

@[simp] theorem value_nil (b : Nat) : value ([] : List (BitVec w)) b = 0 := rfl

/-- The last digit enters by one multiplication and one addition (R81). -/
theorem value_concat (s : List (BitVec w)) (d : BitVec w) (b : Nat) :
    value (s ++ [d]) b = value s b * b + d.toNat := by simp [value]

/-- The value of a sequence in two pieces. -/
theorem value_append (s t : List (BitVec w)) (b : Nat) :
    value (s ++ t) b = value s b * b ^ t.length + value t b := by
  induction t using List.reverseRecOn with
  | nil => simp
  | append_singleton t d ih =>
    rw [← List.append_assoc, value_concat, ih, value_concat, List.length_append, List.length_singleton]
    ring

theorem value_cons (d : BitVec w) (s : List (BitVec w)) (b : Nat) :
    value (d :: s) b = d.toNat * b ^ s.length + value s b := by
  have := value_append [d] s b
  simpa [value] using this

/-- Digits below the base stand for a number below the base to the length. -/
theorem value_lt {s : List (BitVec w)} {b : Nat} (h : ∀ u ∈ s, u.toNat < b) : value s b < b ^ s.length := by
  induction s with
  | nil => simp
  | cons d s ih =>
    have hd : d.toNat + 1 ≤ b := h d (by simp)
    have hs := ih (fun u hu => h u (by simp [hu]))
    rw [value_cons, List.length_cons, pow_succ]
    nlinarith [Nat.mul_le_mul_right (b ^ s.length) hd]

@[simp] theorem value_replicate_zero (n b : Nat) : value (List.replicate n 0#w) b = 0 := by
  induction n with
  | zero => rfl
  | succ n ih => rw [List.replicate_succ, value_cons, ih]; simp

@[simp] theorem digitsOnto_of_zero (b fuel : Nat) (tail : List Byte) : digitsOnto b fuel 0 tail = tail := by
  cases fuel <;> simp [digitsOnto]

/-- The tail is only carried along. -/
theorem digitsOnto_tail (b fuel n : Nat) (tail : List Byte) :
    digitsOnto b fuel n tail = digitsOnto b fuel n [] ++ tail := by
  induction fuel generalizing n tail with
  | zero => rfl
  | succ fuel ih =>
    unfold digitsOnto
    split
    · rfl
    · rw [ih, ih (n / b) [_], List.append_assoc]; rfl

/-- More fuel than bits changes nothing. -/
theorem digitsOnto_fuel {b : Nat} (hb : 2 ≤ b) {fuel n : Nat} (h : n < 2 ^ fuel) (extra : Nat)
    (tail : List Byte) : digitsOnto b (fuel + extra) n tail = digitsOnto b fuel n tail := by
  induction fuel generalizing n tail with
  | zero =>
    obtain rfl : n = 0 := by simpa using h
    simp
  | succ fuel ih =>
    rw [Nat.add_right_comm]
    unfold digitsOnto
    split
    · rfl
    · refine ih ?_ _
      calc n / b ≤ n / 2 := Nat.div_le_div_left hb (by norm_num)
        _ < 2 ^ fuel := by rw [pow_succ] at h; omega

/-- The fuel of `digits` is more than the bits of the number. -/
theorem lt_two_pow_digits_fuel (n : Nat) : n < 2 ^ (n.log2 + 1) := Nat.lt_log2_self

/-- The digits are enough for the number: a lower bound on their count. -/
theorem lt_pow_digitsOnto_length {b : Nat} (hb : 2 ≤ b) {fuel n : Nat} (h : n < 2 ^ fuel) :
    n < b ^ (digitsOnto b fuel n []).length := by
  induction fuel generalizing n with
  | zero =>
    obtain rfl : n = 0 := by simpa using h
    simp
  | succ fuel ih =>
    unfold digitsOnto
    split
    · simp_all
    · have hlt : n / b < 2 ^ fuel := by
        calc n / b ≤ n / 2 := Nat.div_le_div_left hb (by norm_num)
          _ < 2 ^ fuel := by rw [pow_succ] at h; omega
      rw [digitsOnto_tail, List.length_append, List.length_singleton, pow_succ]
      exact (Nat.div_lt_iff_lt_mul (by omega)).mp (ih hlt)

/-- A number at or above `b ^ k` has more than `k` digits (R82). -/
theorem lt_digits_length {b k n : Nat} (hb : 2 ≤ b) (h : b ^ k ≤ n) : k < (digits n b).length :=
  (Nat.pow_lt_pow_iff_right hb).mp
    (h.trans_lt (lt_pow_digitsOnto_length hb (lt_two_pow_digits_fuel n)))

@[simp] theorem lz_nil : lz [] = 0 := rfl

@[simp] theorem lz_zero_cons (s : List Byte) : lz (0#8 :: s) = lz s + 1 := by simp [lz]

theorem lz_cons_of_ne {u : Byte} (h : u ≠ 0#8) (s : List Byte) : lz (u :: s) = 0 := by simp [lz, h]

theorem lz_le_length (s : List Byte) : lz s ≤ s.length := (List.takeWhile_prefix _).length_le

/-- A sequence is its leading zeros and the rest. -/
theorem replicate_lz_append_drop (s : List Byte) : List.replicate (lz s) 0#8 ++ s.drop (lz s) = s := by
  induction s with
  | nil => rfl
  | cons u s ih =>
    by_cases h : u = 0#8
    · subst h; simpa [List.replicate_succ] using ih
    · simp [lz_cons_of_ne h]

/-- The value does not see the leading zeros (R84). -/
theorem value_drop_lz (s : List Byte) (b : Nat) : value (s.drop (lz s)) b = value s b := by
  conv_rhs => rw [← replicate_lz_append_drop s, value_append]
  simp

end Sys2Proof.Machine
end

