-- ==== Sys2Proof/Laws/BitRegrouper.lean ====
section
/-! SUPPORT. The functions of the Bit Regrouper: lengths, and the numbers bit sequences stand for. -/

namespace Sys2Proof.Machine

variable {w : Nat}

@[simp] theorem unitBits_length (u : BitVec w) : (unitBits u).length = w := by simp [unitBits]

@[simp] theorem bitstream_nil : bitstream ([] : List (BitVec w)) = [] := rfl

@[simp] theorem bitstream_cons (u : BitVec w) (s : List (BitVec w)) :
    bitstream (u :: s) = unitBits u ++ bitstream s := rfl

theorem bitstream_append (s t : List (BitVec w)) : bitstream (s ++ t) = bitstream s ++ bitstream t := by
  simp [bitstream]

/-- The stream has `w · len(s)` bits (R100). -/
@[simp] theorem bitstream_length (s : List (BitVec w)) : (bitstream s).length = w * s.length := by
  induction s with
  | nil => simp
  | cons u s ih => simp [ih]; ring

@[simp] theorem bitsValue_nil : bitsValue [] = 0 := rfl

theorem bitsValue_concat (bs : List Bool) (b : Bool) : bitsValue (bs ++ [b]) = 2 * bitsValue bs + b.toNat := by
  simp [bitsValue]

/-- The number of a stream in two pieces. -/
theorem bitsValue_append (bs cs : List Bool) :
    bitsValue (bs ++ cs) = bitsValue bs * 2 ^ cs.length + bitsValue cs := by
  induction cs using List.reverseRecOn with
  | nil => simp
  | append_singleton cs c ih =>
    rw [← List.append_assoc, bitsValue_concat, ih, bitsValue_concat, List.length_append, List.length_singleton]
    ring

theorem bitsValue_lt (bs : List Bool) : bitsValue bs < 2 ^ bs.length := by
  induction bs using List.reverseRecOn with
  | nil => simp
  | append_singleton bs b ih =>
    rw [bitsValue_concat, List.length_append, List.length_singleton, pow_succ]
    have : b.toNat ≤ 1 := Bool.toNat_le b
    omega

@[simp] theorem bitsValue_replicate_false (n : Nat) : bitsValue (List.replicate n false) = 0 := by
  induction n with
  | zero => rfl
  | succ n ih => rw [List.replicate_succ', bitsValue_concat, ih]; rfl

/-- A stream with no 1 stands for 0, and only such a stream does. -/
theorem bitsValue_eq_zero_iff (bs : List Bool) : bitsValue bs = 0 ↔ bs.any id = false := by
  induction bs using List.reverseRecOn with
  | nil => simp
  | append_singleton bs b ih =>
    rw [bitsValue_concat, List.any_append]
    cases b <;> simp [← ih]

@[simp] theorem groups_length (w k : Nat) (bs : List Bool) : (groups w k bs).length = k := by
  induction k generalizing bs with
  | zero => rfl
  | succ k ih => simp [groups, ih]

/-- The lengths the two regroupings give (R101, R103). -/
@[simp] theorem regroup8to5_length (s : List Byte) : (regroup8to5 s).length = quintetCount s.length := by
  simp [regroup8to5]

theorem regroup5to8_length {cfg : Config} {s : List Quintet} {b : List Byte} (h : regroup5to8 cfg s = .bytes b) :
    b.length = 5 * s.length / 8 := by
  unfold regroup5to8 at h
  simp only at h
  split at h
  · cases h
  · split at h
    · cases h
    · cases h; simp

end Sys2Proof.Machine
end

