-- ==== Sys2Proof/Laws/Command.lean ====
section
/-! SUPPORT. What running a command and one step can do, said once: later proofs cite these and do not
unfold `exec`, `wordEffect`, `respond` or `step`. -/

namespace Sys2Proof.Machine

/-- A command's arm is its rule, run as R52 says. -/
theorem exec_eq_runCommand (i : Instr) (s : State) : exec i s = runCommand (ruleOf .standard i) s := by
  cases i <;> rfl

/-- A command always answers the next state its effect gives; the host keeps what it has. -/
theorem exec_eq_next (i : Instr) (s : State) :
    exec i s = .next (s.onBlock (commandEffect (ruleOf .standard i))) := by
  rw [exec_eq_runCommand]; rfl

/-- With FAULT = 1 a command is discarded. -/
theorem commandEffect_of_fault {s : Block} (rule : Block → Block) (h : s.fault = true) :
    commandEffect rule s = s := by simp [commandEffect, h]

/-- With FAULT = 0 the rule runs from the clean start. -/
theorem commandEffect_of_no_fault {s : Block} (rule : Block → Block) (h : s.fault = false) :
    commandEffect rule s = rule s.startClean := by simp [commandEffect, h]

/-- A command's own rule, with FAULT = 0: what a statement of a result starts from. -/
theorem exec_of_no_fault {s : State} (i : Instr) (h : s.fault = false) :
    exec i s = .next { s with toBlock := ruleOf .standard i s.startClean } := by
  rw [exec_eq_next, State.onBlock, commandEffect_of_no_fault _ h]

/-- A CMD write always answers, with the effect of its word on the block. -/
theorem writeCmd_eq (w : Word) (s : State) : writeCmd w s = .next (s.onBlock (wordEffect .standard w)) := by
  unfold writeCmd State.onBlock wordEffect
  cases decode w with
  | command i => exact exec_eq_next i s
  | illegal why => rfl

/-- Everything a CMD write can do to the block: it is discarded, it is illegal, or its command's rule
runs. -/
theorem wordEffect_cases (cfg : Config) (w : Word) (s : Block) :
    (s.fault = true ∧ wordEffect cfg w s = s) ∨
    (s.fault = false ∧ (∃ why, decode w = .illegal why) ∧ wordEffect cfg w s = s.raiseFault .eOpc) ∨
    (s.fault = false ∧ ∃ i, decode w = .command i ∧ wordEffect cfg w s = ruleOf cfg i s.startClean) := by
  unfold wordEffect
  cases hf : s.fault with
  | true => left; cases decode w <;> simp [commandEffect, illegalEffect, hf]
  | false =>
    right
    cases decode w with
    | command i => right; simp [commandEffect, hf]
    | illegal why => left; simp [illegalEffect, hf]

/-- A word that encodes a command is that command's rule, run as R52 says. -/
theorem wordEffect_of_command {w : Word} {i : Instr} (cfg : Config) (s : Block) (h : decode w = .command i) :
    wordEffect cfg w s = commandEffect (ruleOf cfg i) s := by
  simp [wordEffect, h]

/-- A window register past the fill count reads 0, one below it the cell (R38). -/
theorem windowRead_eq (us : List Byte) (i : Nat) : windowRead us i = (us.getD i 0).setWidth 32 := by
  unfold windowRead
  rw [List.getD_eq_getElem?_getD]
  cases us[i]? <;> rfl

/-- An access that the port carries is performed. -/
theorem atPort_of_wf {width : AccessWidth} {off : Nat} (a : Answer) (h : accessWf width off = true) :
    atPort width off a = a := by
  simp [accessWf] at h
  simp [atPort, h]

/-- An access that the port does not carry stops the machine. -/
theorem atPort_of_not_wf {width : AccessWidth} {off : Nat} (a : Answer) (h : accessWf width off = false) :
    ∀ t, atPort width off a ≠ .next t := by
  intro t
  unfold atPort
  split
  · simp
  · split
    · simp
    · split
      · simp
      · exfalso
        simp_all [accessWf]

/-- Everything one step can do when it answers a next state. -/
theorem step_cases {s t : State} (h : step s = .next t) :
    (s.pending = [] ∧ t = s) ∨
    ∃ e rest, s.pending = e :: rest ∧ e.wf = true ∧
      ((∃ w, e = cmdWrite w ∧ t = { s with toBlock := wordEffect .standard w s.toBlock, pending := rest }) ∨
       (∃ off v, e = .write .w32 off v ∧ off ≠ offCmd ∧ t = { s with pending := rest }) ∨
       (∃ off, e = .read .w32 off ∧
          t = { s with pending := rest, answers := s.answers ++ [regRead .standard s.toBlock off] }) ∨
       (e = .reset ∧ t = { s with toBlock := .reset, pending := rest })) := by
  unfold step serve at h
  split at h
  · left
    rename_i hp
    exact ⟨hp, by injection h with h; exact h.symm⟩
  · right
    rename_i e rest hp
    refine ⟨e, rest, hp, ?_⟩
    cases e with
    | reset => exact ⟨rfl, .inr (.inr (.inr ⟨rfl, by injection h with h; exact h.symm⟩))⟩
    | read width off =>
      simp only [respond] at h
      cases hw : accessWf width off with
      | false => exact absurd h (atPort_of_not_wf _ hw t)
      | true =>
        rw [atPort_of_wf _ hw] at h
        have hwid : width = .w32 := by simp [accessWf] at hw; exact hw.1.1
        subst hwid
        exact ⟨hw, .inr (.inr (.inl ⟨off, rfl, by injection h with h; exact h.symm⟩))⟩
    | write width off v =>
      simp only [respond] at h
      cases hw : accessWf width off with
      | false => exact absurd h (atPort_of_not_wf _ hw t)
      | true =>
        rw [atPort_of_wf _ hw] at h
        have hwid : width = .w32 := by simp [accessWf] at hw; exact hw.1.1
        subst hwid
        refine ⟨hw, ?_⟩
        unfold regWrite at h
        split at h
        · rename_i ho
          rw [writeCmd_eq] at h
          exact .inl ⟨v, by rw [ho]; rfl, by injection h with h; exact h.symm⟩
        · rename_i ho
          exact .inr (.inl ⟨off, v, rfl, ho, by injection h with h; exact h.symm⟩)

end Sys2Proof.Machine
end

