-- ==== Sys2Proof/Laws/Encoding.lean ====
section
/-! SUPPORT. The fields of an encoded word, and what each field decoder accepts. -/

namespace Sys2Proof

@[simp] theorem opField_encodeFields (op arg : Byte) : opField (encodeFields op arg) = op := by
  unfold opField encodeFields
  ext i hi
  simp only [BitVec.getElem_extractLsb', BitVec.getLsbD_or, BitVec.getLsbD_setWidth, BitVec.getLsbD_shiftLeft]
  have : i < 32 := by omega
  simp [hi, this]

@[simp] theorem argField_encodeFields (op arg : Byte) : argField (encodeFields op arg) = arg := by
  unfold argField encodeFields
  ext i hi
  simp only [BitVec.getElem_extractLsb', BitVec.getLsbD_or, BitVec.getLsbD_setWidth, BitVec.getLsbD_shiftLeft]
  have h1 : 8 + i < 32 := by omega
  have h3 : i < 32 := by omega
  simp [hi, h1, h3]

@[simp] theorem rsvField_encodeFields (op arg : Byte) : rsvField (encodeFields op arg) = 0 := by
  unfold rsvField encodeFields
  ext i hi
  simp only [BitVec.getElem_extractLsb', BitVec.getLsbD_or, BitVec.getLsbD_setWidth, BitVec.getLsbD_shiftLeft]
  have h1 : op.getLsbD (16 + i) = false := BitVec.getLsbD_of_ge _ _ (by omega)
  have h2 : arg.getLsbD (16 + i - 8) = false := BitVec.getLsbD_of_ge _ _ (by omega)
  simp [h1, h2]

/-- A word is its three fields: with `rsv = 0` it is `op | (arg << 8)` (R51). -/
theorem encodeFields_fields {w : Word} (h : rsvField w = 0) : encodeFields (opField w) (argField w) = w := by
  unfold opField argField encodeFields
  ext i hi
  have hr : ∀ j, j < 16 → w.getLsbD (16 + j) = false := by
    intro j hj
    have := congrArg (fun v => v.getLsbD j) h
    simpa [rsvField, BitVec.getLsbD_extractLsb', hj] using this
  simp only [BitVec.getElem_or, BitVec.getElem_setWidth, BitVec.getElem_shiftLeft, BitVec.getLsbD_extractLsb']
  by_cases h8 : i < 8
  · simp [h8, BitVec.getLsbD_eq_getElem hi]
  · by_cases h16 : i < 16
    · have e : 8 + (i - 8) = i := by omega
      have hlt : i - 8 < 8 := by omega
      simp [h8, e, hlt, BitVec.getLsbD_eq_getElem hi]
    · have e : w.getLsbD i = false := by
        have := hr (i - 16) (by omega)
        rwa [show 16 + (i - 16) = i by omega] at this
      have hlt : ¬ i - 8 < 8 := by omega
      rw [← BitVec.getLsbD_eq_getElem hi, e]
      simp [h8, hlt]

/-- Decoding an encoded pair of fields is the case on `op` alone. -/
theorem decode_encodeFields (op arg : Byte) : decode (encodeFields op arg) = decodeFields op arg := by
  simp [decode]

/-- A command without operand is accepted exactly with `arg = 0`. -/
theorem noOperand_eq_command {arg : Byte} {i j : Instr} :
    noOperand arg i = .command j ↔ arg = 0 ∧ i = j := by
  unfold noOperand; split <;> simp_all

/-- PMSTEP is accepted exactly on the quintets. -/
theorem decodePmstep_setWidth (v : Quintet) : decodePmstep (v.setWidth 8) = .command (.pmstep v) := by
  revert v; decide

/-- PMSUM is accepted exactly on the selectors. -/
theorem decodePmsum_selector (m : Variant) :
    decodePmsum (m.selector.setWidth 8) = .command (.pmsum m) := by
  cases m <;> decide

end Sys2Proof
end

