-- ==== Sys2Proof/Laws/Operands.lean ====
section
/-! SUPPORT. The range check on units, and quintets in and out of cells. -/

namespace Sys2Proof.Machine

theorem someUnitAtLeast_eq_true {bound : Nat} {us : List Byte} :
    someUnitAtLeast bound us = true ↔ ∃ u ∈ us, bound ≤ u.toNat := by
  simp [someUnitAtLeast]

theorem someUnitAtLeast_eq_false {bound : Nat} {us : List Byte} :
    someUnitAtLeast bound us = false ↔ ∀ u ∈ us, u.toNat < bound := by
  simp [someUnitAtLeast]

@[simp] theorem toQuintets_length (us : List Byte) : (toQuintets us).length = us.length := by simp [toQuintets]

@[simp] theorem ofQuintets_length (qs : List Quintet) : (ofQuintets qs).length = qs.length := by simp [ofQuintets]

/-- A quintet put into a cell reads back as itself. -/
@[simp] theorem toQuintets_ofQuintets (qs : List Quintet) : toQuintets (ofQuintets qs) = qs := by
  simp [toQuintets, ofQuintets, Function.comp_def]

/-- Every cell that holds a quintet is below 32. -/
@[simp] theorem someUnitAtLeast_ofQuintets (qs : List Quintet) : someUnitAtLeast 32 (ofQuintets qs) = false := by
  rw [someUnitAtLeast_eq_false]
  intro u hu
  obtain ⟨q, -, rfl⟩ := List.mem_map.mp hu
  have := q.isLt
  simp only [BitVec.toNat_setWidth]
  omega

/-- Units below 32 come back from their quintets. -/
theorem ofQuintets_toQuintets {us : List Byte} (h : ∀ u ∈ us, u.toNat < 32) : ofQuintets (toQuintets us) = us := by
  simp only [toQuintets, ofQuintets, List.map_map]
  refine (List.map_congr_left fun u hu => BitVec.eq_of_toNat_eq ?_).trans (List.map_id us)
  have := h u hu
  simp only [Function.comp_apply, BitVec.toNat_setWidth, id]
  omega

end Sys2Proof.Machine
end

