-- ==== Sys2Proof/Laws/PerInstr.lean ====
section
/-! SUPPORT. Families of statements about every command as syntax, one lemma per constructor. -/

/-- The word that encodes a command matches the command's row of the opcode map (R53). -/
def Sys2Proof.Laws.InItsRow.Statement (i : Sys2Proof.Instr) : Prop :=
  i.op.row.matchesWord (Sys2Proof.encode i) = true

namespace Sys2Proof.Laws.InItsRow

theorem nop : Statement .nop := by unfold Statement; decide
theorem iclr : Statement .iclr := by unfold Statement; decide
theorem push (u : Byte) : Statement (.push u) := by revert u; unfold Statement; decide
theorem mvoi : Statement .mvoi := by unfold Statement; decide
theorem b256to58 : Statement .b256to58 := by unfold Statement; decide
theorem b58to256 : Statement .b58to256 := by unfold Statement; decide
theorem rg8to5 : Statement .rg8to5 := by unfold Statement; decide
theorem rg5to8 : Statement .rg5to8 := by unfold Statement; decide
theorem pminit : Statement .pminit := by unfold Statement; decide
theorem pmstep (v : Quintet) : Statement (.pmstep v) := by revert v; unfold Statement; decide
theorem pmabs : Statement .pmabs := by unfold Statement; decide
theorem pmhrp : Statement .pmhrp := by unfold Statement; decide
theorem pmsum (m : Variant) : Statement (.pmsum m) := by cases m <;> (unfold Statement; decide)
theorem pmvfy : Statement .pmvfy := by unfold Statement; decide

end Sys2Proof.Laws.InItsRow
end

