-- ==== Sys2Proof/Laws/Polymod.lean ====
section
/-! SUPPORT. The functions of the polymod engine: the selected constants are linear in `top`, and the
lengths of the sequences. -/

namespace Sys2Proof.Machine

theorem genTerm_xor (cfg : Config) (a b : Quintet) (i : Fin 5) :
    genTerm cfg (a ^^^ b) i = genTerm cfg a i ^^^ genTerm cfg b i := by
  simp only [genTerm, BitVec.getLsbD_xor]
  cases a.getLsbD i <;> cases b.getLsbD i <;> simp

/-- The constants `top` selects are linear in `top` (R125). -/
theorem genFold_xor (cfg : Config) (a b : Quintet) :
    genFold cfg (a ^^^ b) = genFold cfg a ^^^ genFold cfg b := by
  simp only [genFold, genTerm_xor]
  ac_rfl

@[simp] theorem genFold_zero (cfg : Config) : genFold cfg 0 = 0 := by
  have := genFold_xor cfg 0 0
  simpa using this

@[simp] theorem pmAbsorb_nil (cfg : Config) (c : Chk) : pmAbsorb cfg c [] = c := rfl

@[simp] theorem pmAbsorb_cons (cfg : Config) (c : Chk) (v : Quintet) (s : List Quintet) :
    pmAbsorb cfg c (v :: s) = pmAbsorb cfg (pmStep cfg c v) s := rfl

@[simp] theorem hrpExpand_length (s : List Byte) : (hrpExpand s).length = 2 * s.length + 1 := by
  simp [hrpExpand]; omega

@[simp] theorem pack6_length (m : Chk) : (pack6 m).length = 6 := rfl

end Sys2Proof.Machine
end

