-- ==== Sys2Proof/Tests/Slice0.lean ====
section
/-! SUPPORT. The model's own tests: ill-formed terms the checks refuse; words written out from the encoding
of R50 to R53; one or two small facts per command, each expected result from `95_test_vectors.md` or a
command rule's example; and, for every statement that has hypotheses, states and operands that meet them. -/

open Sys2Proof Sys2Proof.Machine

namespace Sys2Proof.Tests

/-- A block with the given buffers and register, nothing else set, and no access to come. -/
def block (ibuf obuf : List Byte) (chk : Chk) : State := { State.reset with ibuf := ibuf, obuf := obuf, chk := chk }

/-- The fill count of a block whose input is `n` equal units. -/
theorem block_replicate_ilen (n : Nat) (u : Byte) : (block (List.replicate n u) [] 1).ilen = n :=
  List.length_replicate

/-- The answer is a next state with the property. -/
def gives (a : Answer) (p : State → Bool) : Bool :=
  match a with
  | .next t => p t
  | .fault _ => false
  | .refused _ => false

/-! ## Well-formedness: one ill-formed term for each check -/

theorem test_standard_config_wf : Config.standard.wf = true := by decide
theorem test_config_cvMax : ({ Config.standard with bufCap := 8191 } : Config).wf = false := by decide
theorem test_config_rg8Max : ({ Config.standard with rg8Max := 16385 } : Config).wf = false := by decide
theorem test_config_rg5Max : ({ Config.standard with rg5Max := 16385 } : Config).wf = false := by decide
theorem test_config_cvOutMax :
    ({ Config.standard with bufCap := 11187, rg8Max := 10, rg5Max := 20 } : Config).wf = false := by decide
theorem test_config_rg8_out : ({ Config.standard with rg8Max := 10241 } : Config).wf = false := by decide
theorem test_config_inverse : ({ Config.standard with rg5Max := 16383 } : Config).wf = false := by decide
theorem test_config_distinct :
    ({ Config.standard with rg8Max := 0, rg5Max := 0 } : Config).wf = false := by decide
theorem test_config_limit_low : ({ Config.standard with leftoverLimit := 0 } : Config).wf = false := by decide
theorem test_config_limit_high : ({ Config.standard with leftoverLimit := 9 } : Config).wf = false := by decide
theorem test_config_windows : ({ Config.standard with bufCap := 16385 } : Config).wf = false := by decide

theorem test_access_width : accessWf .w8 0 = false ∧ accessWf .w16 0 = false ∧ accessWf .w64 0 = false := by decide
theorem test_access_aligned : accessWf .w32 2 = false := by decide
theorem test_access_region : accessWf .w32 0x30000 = false ∧ accessWf .w32 0x2FFFC = true := by decide
theorem test_event_wf : (HostEvent.write .w8 0 0).wf = false ∧ (HostEvent.read .w32 1).wf = false := by decide

theorem test_operand_push : operandOk .push (some (.num 256)) = false ∧ operandOk .push none = false := by decide
theorem test_operand_pmstep : operandOk .pmstep (some (.num 32)) = false ∧ operandOk .pmstep none = false := by
  decide
theorem test_operand_pmsum : operandOk .pmsum (some (.num 2)) = false ∧ operandOk .pmsum none = false := by decide
theorem test_operand_none : operandOk .nop (some (.num 0)) = false := by decide
theorem test_operand_name : operandOk .push (some (.variant .bech32)) = false := by decide
theorem test_line_word : (AsmLine.word (2 ^ 32)).wf = false := by decide
theorem test_line_load : (AsmLine.load [1, 256]).wf = false := by decide
theorem test_line_loads : (AsmLine.loads ['é']).wf = false := by decide
theorem test_line_rd : (AsmLine.rd (.obuf 16384)).wf = false ∧ (AsmLine.rd (.ibuf 16384)).wf = false := by decide
theorem test_line_expect : (AsmLine.expect .chk (2 ^ 32)).wf = false := by decide

/-! ## Decoding: words written out as rsv, arg, op from R50 and R53 -/

theorem test_decode_nop : decode 0b0000000000000000_00000000_00000000 = .command .nop := by decide
theorem test_decode_iclr : decode 0b0000000000000000_00000000_00000001 = .command .iclr := by decide
theorem test_decode_push : decode 0b0000000000000000_01011101_00000010 = .command (.push 0x5d) := by decide
theorem test_decode_mvoi : decode 0b0000000000000000_00000000_00000011 = .command .mvoi := by decide
theorem test_decode_b256to58 : decode 0b0000000000000000_00000000_00010000 = .command .b256to58 := by decide
theorem test_decode_b58to256 : decode 0b0000000000000000_00000000_00010001 = .command .b58to256 := by decide
theorem test_decode_rg8to5 : decode 0b0000000000000000_00000000_00100000 = .command .rg8to5 := by decide
theorem test_decode_rg5to8 : decode 0b0000000000000000_00000000_00100001 = .command .rg5to8 := by decide
theorem test_decode_pminit : decode 0b0000000000000000_00000000_00110000 = .command .pminit := by decide
theorem test_decode_pmstep : decode 0b0000000000000000_00010110_00110001 = .command (.pmstep 22) := by decide
theorem test_decode_pmabs : decode 0b0000000000000000_00000000_00110010 = .command .pmabs := by decide
theorem test_decode_pmhrp : decode 0b0000000000000000_00000000_00110011 = .command .pmhrp := by decide
theorem test_decode_pmsum : decode 0b0000000000000000_00000001_00110100 = .command (.pmsum .bech32m) ∧
    decode 0b0000000000000000_00000000_00110100 = .command (.pmsum .bech32) := by decide
theorem test_decode_pmvfy : decode 0b0000000000000000_00000000_00110101 = .command .pmvfy := by decide

/-- E6, E9, E10, E12: an unassigned opcode, the unused bits of PMSTEP and PMSUM, and `rsv`. -/
theorem test_decode_illegal :
    decode 0x00000036 = .illegal .unassignedOp ∧ decode 0x00002031 = .illegal .unusedArgBits ∧
    decode 0x00000234 = .illegal .unusedArgBits ∧ decode 0x0001FF02 = .illegal .reservedBits := by decide

theorem test_decodeTableWord : decodeTableWord 32 0x1f31 = some (.pmstep 31) ∧ decodeTableWord 32 4 = none := by
  decide

/-! ## Commands -/

/-- F5: after a failed PMVFY a NOP clears FAIL and ERR. -/
theorem test_nop : gives (exec .nop { State.reset with fail := true, err := .fail .eCsum })
    (fun t => t.status == 0) = true := by decide

/-- R71: ILEN = 4; ICLR; ILEN = 0 and `RD IBUF[0]` = 0. -/
theorem test_iclr : gives (exec .iclr (block [1, 2, 3, 4] [9] 1))
    (fun t => t.ilen == 0 && regRead .standard t.toBlock 0x10000 == 0 && t.obuf == [9]) = true := by decide

/-- B4: units stand in the order of pushing. -/
theorem test_push : gives (exec (.push 3) (block [1, 2] [] 1)) (fun t => t.ibuf == [1, 2, 3]) = true := by decide

/-- B7: the output is copied and kept. -/
theorem test_mvoi : gives (exec .mvoi (block [255] [31, 28] 1))
    (fun t => t.ibuf == [31, 28] && t.obuf == [31, 28]) = true := by decide

/-- C16, C9. -/
theorem test_b256to58 : gives (exec .b256to58 (block [0, 0, 40, 127, 180, 205] [] 1))
    (fun t => t.obuf == [0, 0, 1, 2, 2, 23, 11, 3]) = true := by decide
theorem test_b256to58_carry : convertBase [1, 0] 256 58 = [4, 24] := by decide

/-- D10 and CL11. -/
theorem test_b58to256 : gives (exec .b58to256 (block [0, 4, 24] [] 1)) (fun t => t.obuf == [0, 1, 0]) = true := by
  decide
theorem test_b58to256_unit : gives (exec .b58to256 (block [58] [7] 1))
    (fun t => t.status == 0x021 && t.olen == 0 && t.ilen == 1) = true := by decide

/-- G11, G5. -/
theorem test_rg8to5 : gives (exec .rg8to5 (block [0x75, 0x1e, 0x76] [] 1))
    (fun t => t.obuf == [14, 20, 15, 7, 12]) = true := by decide
theorem test_rg8to5_pad : regroup8to5 [0x01] = [0, 4] := by decide

/-- U24, and U3 with U5: E_EXCESS before E_PAD. -/
theorem test_rg5to8 : gives (exec .rg5to8 (block [14, 20, 15, 7, 12] [] 1))
    (fun t => t.obuf == [0x75, 0x1e, 0x76]) = true := by decide
theorem test_rg5to8_failures :
    gives (exec .rg5to8 (block [31] [1] 1)) (fun t => t.status == 0x082 && t.olen == 0) = true ∧
    gives (exec .rg5to8 (block [31, 29] [1] 1)) (fun t => t.status == 0x092 && t.ilen == 2) = true := by decide

/-- R127's example. -/
theorem test_pminit : gives (exec .pminit { State.reset with chk := 0x2BC830A3, var := .bech32m })
    (fun t => t.chk == 1 && t.var == .none) = true := by decide

/-- R128's example, and the row of section 4 with every bit of `top` set. -/
theorem test_pmstep : gives (exec (.pmstep 3) State.reset) (fun t => t.chk == 0x00000023) = true := by decide
theorem test_pmstep_top : pmStep .standard 0x3fffffff 31 = 0x2b326eb4 := by decide

/-- R129's example, and F2: a bad unit leaves CHK as it was. -/
theorem test_pmabs : gives (exec .pmabs (block [10, 28, 25, 31, 20, 31] [] 0x00008C01))
    (fun t => t.chk == 0x00000001) = true := by decide
theorem test_pmabs_unit : gives (exec .pmabs (block [1, 32] [] 0x25))
    (fun t => t.chk == 0x25 && t.status == 0x021) = true := by decide

/-- R130's example, and the expansion of `tb`. -/
theorem test_pmhrp : gives (exec .pmhrp (block [0x61] [] 1)) (fun t => t.chk == 0x00008C01) = true := by decide
theorem test_hrpExpand : hrpExpand [0x74, 0x62] = [3, 3, 0, 20, 2] := by decide

/-- R131's example, both variants. -/
theorem test_pmsum : gives (exec (.pmsum .bech32) (block [0x61] [] 0x00008C01))
    (fun t => t.chk == 0x15CCFE9E && t.obuf == [10, 28, 25, 31, 20, 31]) = true := by decide
theorem test_pmsum_m : gives (exec (.pmsum .bech32m) (block [0x61] [] 0x00008C01))
    (fun t => t.chk == 0x15CCFE9E && t.obuf == [31, 0, 9, 19, 17, 29]) = true := by decide

/-- R132's examples. -/
theorem test_pmvfy : gives (exec .pmvfy (block [] [5] 0x2BC830A3))
    (fun t => t.status == 0x200 && t.obuf == [5]) = true := by decide
theorem test_pmvfy_fails : gives (exec .pmvfy (block [] [5] 0)) (fun t => t.status == 0x0A2 && t.obuf == [5]) = true := by
  decide

/-! ## Steps, the port and the assembler -/

/-- E4: the first instruction after reset. -/
theorem test_step_placed : gives (step (State.reset.withFetchWord 32 0x00000134))
    (fun t => t.chk == 0x3b6a57b2 && t.obuf == [8, 10, 4, 25, 24, 17]) = true := by decide
/-- E5. -/
theorem test_step_illegal : gives (step (State.reset.withFetchWord 32 4)) (fun t => t.status == 0x031) = true := by
  decide
/-- P1's reads: OBUF[0], OBUF[5], OBUF[6]. -/
theorem test_read_window : [0x20000, 0x20014, 0x20018].map (regRead .standard (block [] [2, 23, 17, 44, 45, 40] 1).toBlock)
    = [2, 0x28, 0] := by decide
/-- B10. -/
theorem test_write_ignored :
    gives (step { State.reset with pending := [.write .w32 0x10000 0xDEADBEEF] }) (fun t => t == State.reset) = true := by
  decide
/-- R58, R59: a commented line, a pseudo-command, a directive. -/
theorem test_parse : parseLine "PUSH 0x5d ; note".toList = some (.command .push (some (.num 0x5d))) ∧
    parseLine "LOADS \"bc\"".toList = some (.loads ['b', 'c']) ∧
    parseLine "RD OBUF[5]".toList = some (.rd (.obuf 5)) ∧
    parseLine "PMSUM BECH32M".toList = some (.command .pmsum (some (.variant .bech32m))) ∧
    parseLine "EXPECT OLEN = 6".toList = some (.expect .olen 6) := by decide
/-- R58: assembler errors encode nothing; and no text may stand before the quotation mark of LOADS (R59). -/
theorem test_assemble_error : assembleText ["PUSH 256".toList] = none ∧ assembleText ["NOPE".toList] = none ∧
    parseLine "LOADS 7 \"a\"".toList = none := by decide

/-! ## Witnesses: what the hypotheses of each statement admit -/

theorem witness_StepsKeepTheInvariants : Config.standard.wf = true ∧ Inv .standard State.reset.toBlock ∧
    step State.reset = .next State.reset :=
  ⟨by decide, by constructor <;> decide, rfl⟩

/-- The witness state `exec` runs NOP in: no command word has been written. -/
theorem witness_OnlyItsWritersChangeAnElement : exec .nop State.reset = .next State.reset ∧
    writesIbuf Op.nop = false ∧ writesObuf Op.nop = false ∧ writesChk Op.nop = false ∧ writesVar Op.nop = false ∧
    Instr.nop ≠ .pminit ∧ (0 : Chk) ≠ State.reset.chk ∧
    exec .nop { State.reset with chk := 0 } = .next { State.reset with chk := 0 } :=
  ⟨rfl, rfl, rfl, rfl, rfl, by decide, by decide, rfl⟩

theorem witness_OnlyItsWritersChangeAnElement_fault :
    gives (exec .b58to256 (block [58] [7] 1)) (fun t => t.fault) = true := by decide

theorem witness_VerdictComesFromTheRegister :
    gives (step (State.reset.withNextCommand (encode .pmvfy))) (fun t => t.var == .bech32) = true ∧
    gives (step ((block [] [] 0x2bc830a3).withNextCommand (encode .pmvfy))) (fun t => t.var == .bech32m) = true := by
  decide

/-- Offsets of every clause, at the ends of their ranges. -/
theorem witness_ReadAnswersTheRegister :
    ({ State.reset with pending := [.read .w32 0x2FFFC] } : State).pending = [.read .w32 0x2FFFC] ∧
    ∀ off ∈ [0x0, 0x4, 0x8, 0xC, 0x10, 0x14, 0xFFFC, 0x10000, 0x1FFFC, 0x20000, 0x2FFFC], off % 4 = 0 ∧ off ≤ 0x2FFFC := by
  decide

/-- A configuration whose windows are shorter than the region's, with offsets at the ends of every clause. -/
theorem witness_ReadAnswersTheRegister_windows :
    ({ Config.standard with bufCap := 11188, rg8Max := 10, rg5Max := 20 } : Config).wf = true ∧
    (0x10000 ≤ 0x1AECC ∧ 0x1AECC < 0x10000 + 4 * 11188) ∧ (0x10000 + 4 * 11188 ≤ 0x1AED0 ∧ 0x1AED0 < 0x20000) ∧
    (0x20000 ≤ 0x2AECC ∧ 0x2AECC < 0x20000 + 4 * 11188) ∧ 0x20000 + 4 * 11188 ≤ 0x2AED0 ∧
    ∀ off ∈ [0x1AECC, 0x1AED0, 0x2AECC, 0x2AED0], off % 4 = 0 ∧ off ≤ 0x2FFFC := by decide

theorem witness_WriteRunsOneCommandOrIsIgnored :
    ({ State.reset with pending := [.write .w32 0 2] } : State).pending = [.write .w32 0 2] ∧
    ∀ off ∈ [0x0, 0x4, 0x2FFFC], off % 4 = 0 ∧ off ≤ 0x2FFFC := by decide

theorem witness_PortStopsOtherAccesses :
    ({ State.reset with pending := [.read .w32 0x30000] } : State).pending = [.read .w32 0x30000] ∧
    ({ State.reset with pending := [.read .w8 0x2FFFF] } : State).pending = [.read .w8 0x2FFFF] ∧
    ({ State.reset with pending := [.write .w32 0x2FFFF 0] } : State).pending = [.write .w32 0x2FFFF 0] ∧
    0x2FFFF < 0x30000 ∧ 0x2FFFF % 4 ≠ 0 ∧ AccessWidth.w8 ≠ .w32 := by decide

theorem witness_EveryStepAnswers_idle : State.reset.hostWf = true ∧ State.reset.pending = [] := by decide

theorem witness_ProgramRunsInOrder :
    ({ State.reset with pending := [cmdWrite 0x5D02, cmdWrite 0x20, .reset] } : State).pending =
      ([0x5D02, 0x20] : List Word).map cmdWrite ++ [.reset] := by decide

theorem witness_EveryStepAnswers :
    ({ State.reset with pending := [cmdWrite 4, .read .w32 4, .write .w32 8 0, .reset] } : State).hostWf = true := by
  decide

/-- A legal and an illegal word, with FAULT = 0 and with FAULT = 1. -/
theorem witness_StepRunsTheDecodedCommand :
    (State.reset.withNextCommand 0x35).pending = cmdWrite 0x35 :: [] ∧
    (State.reset.withNextCommand 0x35).fault = false ∧ decode 0x35 = .command .pmvfy ∧
    decode 0x36 = .illegal .unassignedOp ∧ ({ State.reset with fault := true } : State).fault = true := by decide

theorem witness_StepRunsTheDecodedCommand_placed :
    0x5D02 < 2 ^ 32 ∧ decodeTableWord 32 0x5D02 = some (.push 0x5D) := by decide

theorem witness_EncodeInvertsDecode : decode 0x1F31 = .command (.pmstep 31) := by decide

theorem witness_DecodeAgreesWithTheOpcodeMap :
    Op.push.row ∈ opcodeTable ∧ Op.push.row.matchesWord 0xFF02 = true := by decide

theorem witness_IllegalWordsAreTheOpcFault : State.reset.fault = false ∧ decode 0x110 = .illegal .unusedArgBits := by
  decide

theorem witness_AssemblerExpandsLines :
    operandOk .push (some (.num 255)) = true ∧ operandOk .push (some (.num 256)) = false ∧
    operandOk .pmsum (some (.variant .bech32m)) = true ∧ operandOk .nop none = true ∧
    (∀ n ∈ [0, 255], n < 256) ∧ (∃ n ∈ [0, 256], 256 ≤ n) ∧ (∀ c ∈ ['a', '~'], c.toNat < 128) ∧
    2 ^ 32 ≤ 2 ^ 32 ∧ 16383 < 16384 ∧ (RegName.obuf 16383).wf = true ∧ 2 ^ 32 - 1 < 2 ^ 32 := by
  refine ⟨by decide, by decide, by decide, by decide, by decide, by decide, by simp, by decide, by decide, by decide,
    by decide⟩

/-- NOP, ICLR, MVOI, PMINIT, PMSTEP, PMHRP, PMSUM ask for FAULT = 0 only; NOP also speaks of FAULT = 1. -/
theorem witness_no_fault : State.reset.fault = false ∧ ({ State.reset with fault := true } : State).fault = true := by
  decide

theorem witness_PushAppendsOneUnit :
    (block (List.replicate 16383 0) [] 1).ilen ≠ 16384 ∧ (block (List.replicate 16384 0) [] 1).ilen = 16384 ∧
    (block (List.replicate 16384 0) [] 1).fault = false ∧ Config.standard.bufCap = 16384 := by
  simp only [block_replicate_ilen]
  exact ⟨by decide, trivial, rfl, rfl⟩

theorem witness_DigitsAreTheShortestSequence : 2 ≤ 58 ∧ 58 ≤ 256 ∧ 0 < 57 := by decide

theorem witness_LeadingZerosAreCounted : 2 ≤ ([0, 0, 1] : List Byte).length ∧
    ∀ i, i < 2 → ([0, 0, 1] : List Byte)[i]? = some 0 := by decide

/-- Both directions, with leading zeros and without, and a sequence that has the count and the value. -/
theorem witness_ConversionKeepsZerosAndValue :
    (∀ u ∈ ([0, 57] : List Byte), u.toNat < 58) ∧ (∀ u ∈ ([0, 255] : List Byte), u.toNat < 256) ∧
    (lz [57] = 0 ∧ ([57] : List Byte) ≠ []) ∧
    lz [0, 4, 23] = lz [0, 255] ∧ value ([0, 4, 23] : List Byte) 58 = value ([0, 255] : List Byte) 256 := by decide

theorem witness_B256to58Converts :
    (block (List.replicate 8192 0) [] 1).ilen ≤ 8192 ∧ 8192 < (block (List.replicate 8193 0) [] 1).ilen := by
  simp only [block_replicate_ilen]
  decide

theorem witness_B58to256Converts :
    ((block [57] [] 1).ilen ≤ 8192 ∧ ∀ u ∈ (block [57] [] 1).ibuf, u.toNat < 58) ∧
    ((block [58] [] 1).ilen ≤ 8192 ∧ ∃ u ∈ (block [58] [] 1).ibuf, 58 ≤ u.toNat) ∧
    8192 < (block (List.replicate 8193 58) [] 1).ilen := by
  refine ⟨by decide, by decide, ?_⟩
  simp only [block_replicate_ilen]
  decide

theorem witness_ConversionOutputFits :
    (List.replicate 8192 (57 : Byte)).length ≤ 8192 ∧ (∀ u ∈ List.replicate 8192 (57 : Byte), u.toNat < 58) ∧
    lz (57 :: List.replicate 8191 (57 : Byte)) = 0 := by
  refine ⟨List.length_replicate.le, fun u hu => ?_, lz_cons_of_ne (by decide) _⟩
  rw [List.eq_of_mem_replicate hu]
  decide

theorem witness_ConverterRoundTrip : ([0, 255] : List Byte).length ≤ 8192 ∧ Config.standard.wf = true ∧
    (convertBase [0, 255] 256 58).length ≤ 8192 ∧ ∀ u ∈ ([0, 57] : List Byte), u.toNat < 58 := by decide

theorem convertBase_length_of_pow_le (n k : Nat) (h : 58 ^ k ≤ 128 * 256 ^ n) :
    k < (convertBase (128#8 :: List.replicate n 0#8) 256 58).length := by
  have hv : value (128#8 :: List.replicate n 0#8) 256 = 128 * 256 ^ n := by
    rw [value_cons, List.length_replicate, value_replicate_zero]
    rfl
  unfold convertBase
  rw [List.length_append, hv]
  exact lt_of_lt_of_le (lt_digits_length (by norm_num) h) (Nat.le_add_left _ _)

/-- 5999 bytes that convert to more than 8192 digits (as in CL2). -/
theorem witness_ConverterRoundTrip_too_long :
    (128#8 :: List.replicate 5998 0#8).length ≤ 8192 ∧
    8192 < (convertBase (128#8 :: List.replicate 5998 0#8) 256 58).length :=
  ⟨by rw [List.length_cons, List.length_replicate]; decide,
    convertBase_length_of_pow_le 5998 8192 (by decide +kernel)⟩

theorem witness_ReferenceConverterAgrees : ∀ u ∈ ([0, 57] : List Byte), u.toNat < 58 := by decide

theorem witness_BitstreamIsMsbFirst : 1 < ([31, 28] : List Quintet).length ∧ 4 < 5 := by decide

theorem witness_RegroupingBytesPadsWithZeros : 1 < (8 * ([255] : List Byte).length + 4) / 5 := by decide

theorem witness_Rg8to5Regroups :
    (block (List.replicate 10240 0) [] 1).ilen ≤ 10240 ∧ 10240 < (block (List.replicate 10241 0) [] 1).ilen ∧
    Config.standard.rg8Max = 10240 := by
  simp only [block_replicate_ilen]
  decide

/-- One quintet sequence for each result: 7, 2 and 4 leftover bits. -/
theorem witness_RegroupingQuintetsChecksTheLeftover :
    Config.standard.leftoverLimit ≤ 5 * ([31, 28, 0] : List Quintet).length % 8 ∧
    (5 * ([31, 29] : List Quintet).length % 8 < Config.standard.leftoverLimit ∧
      (bitstream ([31, 29] : List Quintet))[9]? = some true) ∧
    (5 * ([0, 0, 0, 16] : List Quintet).length % 8 < Config.standard.leftoverLimit ∧
      ((bitstream ([0, 0, 0, 16] : List Quintet)).drop 16).all (fun b => !b) = true) := by decide

theorem witness_Rg5to8Regroups :
    ((block [31, 28] [] 1).ilen ≤ 16384 ∧ (∀ u ∈ (block [31, 28] [] 1).ibuf, u.toNat < 32) ∧
      regroup5to8 .standard [31, 28] = .bytes [255]) ∧
    regroup5to8 .standard [31] = .excess ∧ regroup5to8 .standard [31, 29] = .pad ∧
    (∃ u ∈ (block [31, 32] [] 1).ibuf, 32 ≤ u.toNat) := by decide

/-- The longest admitted input, with good units and with a bad one, and one unit more. -/
theorem witness_Rg5to8Regroups_long :
    (block (List.replicate 16384 0) [] 1).ilen ≤ 16384 ∧
    (∀ u ∈ (block (List.replicate 16384 0) [] 1).ibuf, u.toNat < 32) ∧
    (∃ u ∈ (block (List.replicate 16384 32) [] 1).ibuf, 32 ≤ u.toNat) ∧
    16384 < (block (List.replicate 16385 0) [] 1).ilen ∧ Config.standard.rg5Max = 16384 := by
  simp only [block_replicate_ilen]
  refine ⟨le_refl _, fun u hu => ?_, ⟨32, List.mem_replicate.mpr ⟨by decide, rfl⟩, by decide⟩, by decide, rfl⟩
  rw [List.eq_of_mem_replicate (show u ∈ List.replicate 16384 0 from hu)]
  decide

theorem witness_LeftoverDependsOnTheLengthOnly : Config.standard.leftoverLimit = 5 ∧
    ({ Config.standard with leftoverLimit := 8 } : Config).leftoverLimit = 8 ∧
    (1 ≤ Config.standard.leftoverLimit ∧ (List.replicate 8 (31 : Quintet)).length % 8 = 0) ∧
    (∀ n ∈ [0, 2, 4, 5, 7, 8, 16384], n % 8 ∈ [0, 2, 4, 5, 7]) ∧ (regroup8to5 [255]).length = 2 := by decide

/-- The normative limit, the largest and the smallest, with a quintet sequence that each admits. -/
theorem witness_RegroupingIsInverted : Config.standard.leftoverLimit = 5 ∧ Config.standard.wf = true ∧
    ({ Config.standard with leftoverLimit := 8 } : Config).wf = true ∧
    regroup5to8 .standard [31, 28] = .bytes [255] ∧
    regroup5to8 { Config.standard with leftoverLimit := 1 } (List.replicate 8 31) = .bytes (List.replicate 5 255) ∧
    ([255] : List Byte).length ≤ Config.standard.rg8Max := by decide

theorem witness_HrpExpansionShape : 1 < ([0x62, 0x63] : List Byte).length := by decide

theorem witness_PolymodIsLinear : ([31, 0, 9, 19, 17, 29] : List Quintet).length = 6 := by decide

theorem witness_PmabsAbsorbsTheInput :
    (∀ u ∈ (block [31] [] 1).ibuf, u.toNat < 32) ∧ ∃ u ∈ (block [1, 32] [] 1).ibuf, 32 ≤ u.toNat := by decide

theorem witness_PmvfyComparesBothConstants :
    State.reset.chk = 0x00000001 ∧ (block [] [] 0x2BC830A3).chk = 0x2BC830A3 ∧
    ((block [] [] 2).chk ≠ 0x00000001 ∧ (block [] [] 2).chk ≠ 0x2BC830A3) := by decide

theorem witness_CreationSequenceGivesTheChecksum : State.reset.fault = false ∧
    ([0x61] : List Byte).length ≤ Config.standard.bufCap ∧ ([] : List Quintet).length ≤ Config.standard.bufCap := by
  decide

/-- S2, S3, S5: one sequence for each verdict. -/
theorem witness_VerificationSequenceGivesTheVerdict :
    pmAbsorb .standard 1 (hrpExpand [0x61] ++ [10, 28, 25, 31, 20, 31]) = constBech32 ∧
    pmAbsorb .standard 1 (hrpExpand [0x61] ++ [31, 0, 9, 19, 17, 29]) = constBech32m ∧
    (pmAbsorb .standard 1 (hrpExpand [0x61]) ≠ constBech32 ∧
      pmAbsorb .standard 1 (hrpExpand [0x61]) ≠ constBech32m) := by decide

theorem witness_CreatedChecksumVerifies :
    (block [] [] 0x00008C01).fault = false ∧ (block [10, 28, 25, 31, 20, 31] [] 0x00008C01).fault = false ∧
    (block [10, 28, 25, 31, 20, 31] [] 0x00008C01).chk = (block [] [] 0x00008C01).chk ∧
    (block [10, 28, 25, 31, 20, 31] [] 0x00008C01).ibuf =
      (wordEffect .standard (encode (.pmsum .bech32)) (block [] [] 0x00008C01).toBlock).obuf ∧
    ([0x61] : List Byte).length ≤ Config.standard.bufCap ∧
    ([1, 2] : List Quintet).length + 6 ≤ Config.standard.bufCap := by decide

/-- An illegal word, a fault, a failure and a clean end. -/
theorem witness_CommandsFaultAndFailByTheTable :
    decode 4 = .illegal .unassignedOp ∧ decode 0x21 = .command .rg5to8 ∧
    faultCause .standard .rg5to8 (block [32] [] 1).toBlock = some .eUnit ∧
    (faultCause .standard .rg5to8 (block [31] [] 1).toBlock = none ∧
      failCause .standard .rg5to8 (block [31] [] 1).toBlock = some .eExcess) ∧
    (faultCause .standard .rg5to8 (block [31, 28] [] 1).toBlock = none ∧
      failCause .standard .rg5to8 (block [31, 28] [] 1).toBlock = none) := by decide

/-- A faulted block with a read, a CMD write and a misaligned write to come. -/
theorem witness_FaultIsLeftByResetOnly :
    ({ State.reset with fault := true, pending := [.read .w32 4, cmdWrite 0] } : State).pending =
      .read .w32 4 :: [cmdWrite 0] ∧ accessWf .w32 4 = true ∧
    gives (step { State.reset with fault := true, pending := [cmdWrite 0x10000] }) (fun t => t.fault) = true := by
  decide

theorem witness_FailureIsForgottenByTheNextCommand : Instr.nop ≠ .pminit ∧ Instr.nop ≠ .pmvfy := by decide

theorem witness_EmptyInputIsValid : State.reset.fault = false ∧ State.reset.ibuf = [] := by decide

theorem witness_ResetWinsFromAnyState :
    ({ State.reset with fault := true, pending := [.reset, cmdWrite 0] } : State).pending = .reset :: [cmdWrite 0] := by
  decide

end Sys2Proof.Tests
end

namespace Sys2Proof.Machine

/-! Lengths of conversions (R84, R88) -/

/-- A number below `b ^ k` has at most `k` digits (R82). -/
theorem digitsOnto_length_le {b n k : Nat} (h : n < b ^ k) (fuel : Nat) :
    (digitsOnto b fuel n []).length ≤ k := by
  induction fuel generalizing n k with
  | zero => simp [digitsOnto]
  | succ fuel ih =>
    unfold digitsOnto
    split
    · simp
    · obtain _ | k := k
      · simp_all
      · have hlt : n / b < b ^ k := Nat.div_lt_of_lt_mul (by rwa [← pow_succ'])
        rw [digitsOnto_tail, List.length_append, List.length_singleton]
        exact Nat.succ_le_succ (ih hlt)

/-- The leading zeros are kept and the rest needs `k` digits where `t ^ k` covers it (R84). -/
theorem convertBase_length_le_lz_add {s : List Byte} {f t k : Nat}
    (hs : ∀ u ∈ s, u.toNat < f) (h : f ^ (s.length - lz s) ≤ t ^ k) :
    (convertBase s f t).length ≤ lz s + k := by
  have hv : value s f < t ^ k := by
    have := value_lt (s := s.drop (lz s)) fun u hu => hs u (List.mem_of_mem_drop hu)
    rw [value_drop_lz, List.length_drop] at this
    exact this.trans_le h
  have := digitsOnto_length_le hv ((value s f).log2 + 1)
  rw [convertBase, List.length_append, List.length_replicate]
  exact Nat.add_le_add_left this _

/-- Into a larger base a conversion gets no longer (R88). -/
theorem convertBase_length_le_length {s : List Byte} {f t : Nat} (hft : f ≤ t)
    (hs : ∀ u ∈ s, u.toNat < f) : (convertBase s f t).length ≤ s.length := by
  have := convertBase_length_le_lz_add hs (Nat.pow_le_pow_left hft _)
  have := lz_le_length s
  omega

/-- Into a smaller base a conversion is at most `k` long where `t ^ k` covers all sequences of the
length: a leading zero costs one output unit, another digit no less (R88). -/
theorem convertBase_length_le_of_pow_le {s : List Byte} {f t k : Nat} (ht : 2 ≤ t) (htf : t ≤ f)
    (hs : ∀ u ∈ s, u.toNat < f) (h : f ^ s.length ≤ t ^ k) : (convertBase s f t).length ≤ k := by
  have hz := lz_le_length s
  have hk : s.length ≤ k :=
    (Nat.pow_le_pow_iff_right ht).mp ((Nat.pow_le_pow_left htf _).trans h)
  have hrest : f ^ (s.length - lz s) ≤ t ^ (k - lz s) := by
    refine Nat.le_of_mul_le_mul_right ?_ (Nat.pow_pos (n := lz s) (show 0 < t by omega))
    calc f ^ (s.length - lz s) * t ^ lz s
        ≤ f ^ (s.length - lz s) * f ^ lz s := Nat.mul_le_mul_left _ (Nat.pow_le_pow_left htf _)
      _ = f ^ s.length := by rw [← pow_add, Nat.sub_add_cancel hz]
      _ ≤ t ^ k := h
      _ = t ^ (k - lz s) * t ^ lz s := by rw [← pow_add, Nat.sub_add_cancel (hz.trans hk)]
  have := convertBase_length_le_lz_add hs hrest
  omega

/-- `CVOUT_MAX` base-58 digits cover `CV_MAX` bytes (R6, R88). -/
theorem pow_cvMax_le_pow_cvOutMax : 256 ^ cvMax ≤ 58 ^ cvOutMax := by decide +kernel

/-- The output of B256TO58 on an admitted input is at most `CVOUT_MAX` long (R88). -/
theorem convertBase_256_58_length_le {s : List Byte} (h : s.length ≤ cvMax) :
    (convertBase s 256 58).length ≤ cvOutMax :=
  convertBase_length_le_of_pow_le (by norm_num) (by norm_num) (fun u _ => u.isLt)
    ((Nat.pow_le_pow_right (by norm_num) h).trans pow_cvMax_le_pow_cvOutMax)

/-! The constraints of R6 on the outputs -/

theorem Config.cvOutMax_le_bufCap {cfg : Config} (h : cfg.wf = true) : cvOutMax ≤ cfg.bufCap := by
  simp only [Config.wf, Bool.and_eq_true, decide_eq_true_eq] at h
  omega

theorem Config.quintetCount_le_bufCap {cfg : Config} (h : cfg.wf = true) :
    quintetCount cfg.rg8Max ≤ cfg.bufCap := by
  simp only [Config.wf, Bool.and_eq_true, decide_eq_true_eq] at h
  simp only [quintetCount]
  omega

theorem Config.standard_wf : Config.standard.wf = true := by decide

theorem quintetCount_mono {m n : Nat} (h : m ≤ n) : quintetCount m ≤ quintetCount n := by
  unfold quintetCount
  omega

/-! The codes (R19, R20) -/

theorem FaultCode.code_range (c : FaultCode) : c.code = 1 ∨ c.code = 2 ∨ c.code = 3 ∨ c.code = 4 := by
  cases c <;> decide

theorem FailCode.code_range (c : FailCode) : c.code = 8 ∨ c.code = 9 ∨ c.code = 10 := by
  cases c <;> decide

theorem Var.code_ne_three (v : Var) : v.code ≠ 3 := by
  cases v <;> decide

/-- Failure entry empties OBUF or leaves it (R153). -/
theorem Block.failEntry_olen_le (s : Block) (c : FailCode) : (s.failEntry c).olen ≤ s.olen := by
  cases c with
  | eExcess | ePad => exact Nat.zero_le _
  | eCsum => exact le_rfl

/-! Each write of a state element, fault entry and failure entry keep the invariants (R26) -/

namespace Inv

variable {cfg : Config} {s : Block}

theorem reset (cfg : Config) : Inv cfg .reset where
  ibuf_fits := Nat.zero_le _
  obuf_fits := Nat.zero_le _
  chk_width := BitVec.isLt _
  one_domain := by decide
  no_error _ _ := rfl
  fail_codes := by decide
  fault_codes := by decide
  fault_empties := by decide
  var_codes := Var.code_ne_three _

theorem startClean (h : Inv cfg s) (hf : s.fault = false) : Inv cfg s.startClean :=
  { h with
    one_domain := by simp
    no_error _ _ := rfl
    fail_codes := by simp
    fault_codes := by simp [hf] }

theorem setIbuf (h : Inv cfg s) {us : List Byte} (hu : us.length ≤ cfg.bufCap) : Inv cfg (s.setIbuf us) :=
  { h with ibuf_fits := hu }

theorem setObuf (h : Inv cfg s) (hf : s.fault = false) {us : List Byte} (hu : us.length ≤ cfg.bufCap) :
    Inv cfg (s.setObuf us) :=
  { h with
    obuf_fits := hu
    fault_empties := by simp [hf] }

theorem setChk (h : Inv cfg s) (c : Chk) : Inv cfg (s.setChk c) :=
  { h with chk_width := c.isLt }

theorem setVar (h : Inv cfg s) (hf : s.fault = false) (v : Var) : Inv cfg (s.setVar v) :=
  { h with
    fault_empties := by simp [hf]
    var_codes := v.code_ne_three }

theorem raiseFault (h : Inv cfg s) (c : FaultCode) : Inv cfg (s.raiseFault c) :=
  { h with
    obuf_fits := Nat.zero_le _
    one_domain := by simp
    no_error := by simp
    fail_codes := by simp
    fault_codes _ := c.code_range
    fault_empties _ := ⟨rfl, rfl⟩
    var_codes := Var.code_ne_three _ }

theorem failEntry (h : Inv cfg s) (hf : s.fault = false) (c : FailCode) : Inv cfg (s.failEntry c) where
  ibuf_fits := by simpa [Block.ilen_eq] using h.ibuf_fits
  obuf_fits := (s.failEntry_olen_le c).trans h.obuf_fits
  chk_width := BitVec.isLt _
  one_domain := by simp [hf]
  no_error := by simp
  fail_codes _ := by rw [Block.failEntry_err]; exact c.code_range
  fault_codes := by simp [hf]
  fault_empties := by simp [hf]
  var_codes := Var.code_ne_three _

end Inv

section rules

variable {cfg : Config} {s : Block}

/-! Each command's rule keeps the invariants -/

theorem inv_pushRule (h : Inv cfg s) (u : Byte) : Inv cfg (pushRule cfg u s) := by
  unfold pushRule
  split
  · exact h.raiseFault _
  · next hne =>
    have hlt : s.ibuf.length < cfg.bufCap := lt_of_le_of_ne h.ibuf_fits hne
    exact h.setIbuf (by simpa using hlt)

theorem inv_b256to58Rule (hwf : cfg.wf = true) (h : Inv cfg s) (hf : s.fault = false) :
    Inv cfg (b256to58Rule s) := by
  unfold b256to58Rule
  split
  · exact h.raiseFault _
  · next hlen =>
    exact h.setObuf hf ((convertBase_256_58_length_le (not_lt.mp hlen)).trans (Config.cvOutMax_le_bufCap hwf))

theorem inv_b58to256Rule (h : Inv cfg s) (hf : s.fault = false) : Inv cfg (b58to256Rule s) := by
  unfold b58to256Rule
  split
  · exact h.raiseFault _
  · split
    · exact h.raiseFault _
    · next hunits =>
      have hd := someUnitAtLeast_eq_false.mp (Bool.eq_false_of_not_eq_true hunits)
      exact h.setObuf hf ((convertBase_length_le_length (by norm_num) hd).trans h.ibuf_fits)

theorem inv_rg8to5Rule (hwf : cfg.wf = true) (h : Inv cfg s) (hf : s.fault = false) :
    Inv cfg (rg8to5Rule cfg s) := by
  unfold rg8to5Rule
  split
  · exact h.raiseFault _
  · next hlen =>
    have hle : quintetCount s.ibuf.length ≤ quintetCount cfg.rg8Max :=
      quintetCount_mono (not_lt.mp hlen)
    exact h.setObuf hf (by simpa using hle.trans (Config.quintetCount_le_bufCap hwf))

theorem inv_rg5to8Rule (h : Inv cfg s) (hf : s.fault = false) : Inv cfg (rg5to8Rule cfg s) := by
  unfold rg5to8Rule
  split
  · exact h.raiseFault _
  · split
    · exact h.raiseFault _
    · split
      · exact h.failEntry hf _
      · exact h.failEntry hf _
      · next b hb =>
        have hlen := regroup5to8_length hb
        rw [toQuintets_length] at hlen
        have hfit : s.ibuf.length ≤ cfg.bufCap := h.ibuf_fits
        exact h.setObuf hf (by omega)

theorem inv_pmabsRule (h : Inv cfg s) : Inv cfg (pmabsRule cfg s) := by
  unfold pmabsRule
  split
  · exact h.raiseFault _
  · exact h.setChk _

theorem inv_pmsumRule (hwf : cfg.wf = true) (h : Inv cfg s) (hf : s.fault = false) (m : Variant) :
    Inv cfg (pmsumRule cfg m s) := by
  refine (h.setChk (absorbPlaceholders cfg s.chk)).setObuf hf ?_
  have hroom : 6 ≤ cfg.bufCap := (by decide : 6 ≤ cvOutMax).trans (Config.cvOutMax_le_bufCap hwf)
  simpa using hroom

theorem inv_pmvfyRule (h : Inv cfg s) (hf : s.fault = false) : Inv cfg (pmvfyRule s) := by
  unfold pmvfyRule
  split
  · exact h.setVar hf _
  · split
    · exact h.setVar hf _
    · exact (h.setVar hf .none).failEntry hf _

theorem inv_ruleOf (hwf : cfg.wf = true) (h : Inv cfg s) (hf : s.fault = false) (i : Instr) :
    Inv cfg (ruleOf cfg i s) := by
  cases i with
  | nop => exact h
  | iclr => exact h.setIbuf (Nat.zero_le _)
  | push u => exact inv_pushRule h u
  | mvoi => exact h.setIbuf h.obuf_fits
  | b256to58 => exact inv_b256to58Rule hwf h hf
  | b58to256 => exact inv_b58to256Rule h hf
  | rg8to5 => exact inv_rg8to5Rule hwf h hf
  | rg5to8 => exact inv_rg5to8Rule h hf
  | pminit => exact (h.setChk chkSeed).setVar hf _
  | pmstep _ | pmhrp => exact h.setChk _
  | pmabs => exact inv_pmabsRule h
  | pmsum m => exact inv_pmsumRule hwf h hf m
  | pmvfy => exact inv_pmvfyRule h hf

/-- A CMD write keeps the invariants. -/
theorem inv_wordEffect (hwf : cfg.wf = true) (h : Inv cfg s) (w : Word) : Inv cfg (wordEffect cfg w s) := by
  obtain ⟨-, heq⟩ | ⟨-, -, heq⟩ | ⟨hf, i, -, heq⟩ := wordEffect_cases cfg w s
  · rwa [heq]
  · rw [heq]; exact h.raiseFault _
  · rw [heq]; exact inv_ruleOf hwf (h.startClean hf) hf i

/-- A step of the machine keeps the invariants of the configuration it runs at. -/
theorem inv_step {s t : State} (h : Inv .standard s.toBlock) (hst : step s = .next t) :
    Inv .standard t.toBlock := by
  obtain ⟨-, rfl⟩ | ⟨_, _, -, -, ⟨w, -, rfl⟩ | ⟨_, _, -, -, rfl⟩ | ⟨_, -, rfl⟩ | ⟨-, rfl⟩⟩ := step_cases hst
  · exact h
  · exact inv_wordEffect Config.standard_wf h w
  · exact h
  · exact h
  · exact Inv.reset _

end rules

/-- Settles O2: the reset state meets each clause by its values. -/
theorem invariantsHoldAtReset : Obligations.InvariantsHoldAtReset := Inv.reset

/-- Settles O3: every rule writes through operations that keep the invariants, and R6 with R88 bounds the
outputs. -/
theorem stepsKeepTheInvariants : Obligations.StepsKeepTheInvariants :=
  ⟨fun _ w _ hwf h => inv_wordEffect hwf h w, fun _ _ h hst => inv_step h hst⟩

end Sys2Proof.Machine

namespace Sys2Proof

/-! A legal word is the encoding of its command (R51) -/

theorem decodePmstep_eq_command {arg : Byte} {i : Instr} (h : decodePmstep arg = .command i) :
    ∃ v, i = .pmstep v ∧ i.arg = arg := by
  unfold decodePmstep at h
  split at h
  · next hz =>
    cases h
    refine ⟨_, rfl, ?_⟩
    revert arg
    decide
  · cases h

theorem decodePmsum_eq_command {arg : Byte} {i : Instr} (h : decodePmsum arg = .command i) :
    ∃ m, i = .pmsum m ∧ i.arg = arg := by
  unfold decodePmsum at h
  split at h
  · next hz =>
    cases h
    refine ⟨_, rfl, ?_⟩
    revert arg
    decide
  · cases h

/-- The two fields that decode to a command are the command's own. -/
theorem code_and_arg_of_decodeFields {op arg : Byte} {i : Instr} (h : decodeFields op arg = .command i) :
    i.op.code = op ∧ i.arg = arg := by
  unfold decodeFields at h
  -- The arms stand in the order of R53: PUSH takes any operand, PMSTEP and PMSUM check theirs, the last arm
  -- is the unassigned opcodes, and every other command takes no operand.
  split at h
  case h_3 => cases h; exact ⟨rfl, rfl⟩
  case h_10 => obtain ⟨v, rfl, harg⟩ := decodePmstep_eq_command h; exact ⟨rfl, harg⟩
  case h_13 => obtain ⟨m, rfl, harg⟩ := decodePmsum_eq_command h; exact ⟨rfl, harg⟩
  case h_15 => cases h
  all_goals
    obtain ⟨rfl, rfl⟩ := noOperand_eq_command.mp h
    exact ⟨rfl, rfl⟩

theorem encode_of_decode {w : Word} {i : Instr} (h : decode w = .command i) : encode i = w := by
  unfold decode at h
  split at h
  · cases h
  · next hrsv =>
    obtain ⟨hop, harg⟩ := code_and_arg_of_decodeFields h
    rw [encode, hop, harg, encodeFields_fields (not_not.mp hrsv)]

end Sys2Proof

namespace Sys2Proof.Machine

/-! What a command leaves unchanged (R12, R14, R16, R20) -/

/-- `t` has the FAULT of `s` and every element of `s` that the command `i` does not write. -/
structure KeepsUnwritten (i : Instr) (s t : Block) : Prop where
  fault : t.fault = s.fault
  ibuf : writesIbuf i.op = false → t.ibuf = s.ibuf
  obuf : writesObuf i.op = false → t.obuf = s.obuf
  chk : writesChk i.op = false → t.chk = s.chk
  var : writesVar i.op = false → t.var = s.var

namespace KeepsUnwritten

variable {i : Instr} {s t u : Block}

theorem refl : KeepsUnwritten i s s where
  fault := rfl
  ibuf _ := rfl
  obuf _ := rfl
  chk _ := rfl
  var _ := rfl

theorem trans (h : KeepsUnwritten i s t) (h' : KeepsUnwritten i t u) : KeepsUnwritten i s u where
  fault := h'.fault.trans h.fault
  ibuf hw := (h'.ibuf hw).trans (h.ibuf hw)
  obuf hw := (h'.obuf hw).trans (h.obuf hw)
  chk hw := (h'.chk hw).trans (h.chk hw)
  var hw := (h'.var hw).trans (h.var hw)

theorem startClean : KeepsUnwritten i s s.startClean :=
  { refl with }

theorem setIbuf (hi : writesIbuf i.op = true) (us : List Byte) : KeepsUnwritten i s (s.setIbuf us) :=
  { refl with ibuf := by simp [hi] }

theorem setObuf (hi : writesObuf i.op = true) (us : List Byte) : KeepsUnwritten i s (s.setObuf us) :=
  { refl with obuf := by simp [hi] }

theorem setChk (hi : writesChk i.op = true) (c : Chk) : KeepsUnwritten i s (s.setChk c) :=
  { refl with chk := by simp [hi] }

theorem setVar (hi : writesVar i.op = true) (v : Var) : KeepsUnwritten i s (s.setVar v) :=
  { refl with var := by simp [hi] }

/-- Failure entry writes VAR for E_CSUM and OBUF for the other codes (R153). -/
theorem failEntry {c : FailCode} (hobuf : c ≠ .eCsum → writesObuf i.op = true)
    (hvar : c = .eCsum → writesVar i.op = true) : KeepsUnwritten i s (s.failEntry c) where
  fault := s.failEntry_fault c
  ibuf _ := s.failEntry_ibuf c
  obuf := by cases c <;> simp_all
  chk _ := s.failEntry_chk c
  var := by cases c <;> simp_all

end KeepsUnwritten

/-- All that a command's rule can do: enter a fault, or write what the command writes. -/
theorem ruleOf_cases (cfg : Config) (i : Instr) (s : Block) :
    (∃ c, ruleOf cfg i s = s.raiseFault c) ∨ KeepsUnwritten i s (ruleOf cfg i s) := by
  cases i with
  | nop => exact .inr .refl
  | iclr | mvoi => exact .inr (.setIbuf rfl _)
  | push u =>
    simp only [ruleOf, pushRule]
    split
    · exact .inl ⟨_, rfl⟩
    · exact .inr (.setIbuf rfl _)
  | b256to58 =>
    simp only [ruleOf, b256to58Rule]
    split
    · exact .inl ⟨_, rfl⟩
    · exact .inr (.setObuf rfl _)
  | b58to256 =>
    simp only [ruleOf, b58to256Rule]
    split
    · exact .inl ⟨_, rfl⟩
    · split
      · exact .inl ⟨_, rfl⟩
      · exact .inr (.setObuf rfl _)
  | rg8to5 =>
    simp only [ruleOf, rg8to5Rule]
    split
    · exact .inl ⟨_, rfl⟩
    · exact .inr (.setObuf rfl _)
  | rg5to8 =>
    simp only [ruleOf, rg5to8Rule]
    split
    · exact .inl ⟨_, rfl⟩
    · split
      · exact .inl ⟨_, rfl⟩
      · split
        · exact .inr (.failEntry (fun _ => rfl) nofun)
        · exact .inr (.failEntry (fun _ => rfl) nofun)
        · exact .inr (.setObuf rfl _)
  | pminit => exact .inr (.trans (.setChk rfl _) (.setVar rfl _))
  | pmstep _ | pmhrp => exact .inr (.setChk rfl _)
  | pmabs =>
    simp only [ruleOf, pmabsRule]
    split
    · exact .inl ⟨_, rfl⟩
    · exact .inr (.setChk rfl _)
  | pmsum m => exact .inr (.trans (.setChk rfl _) (.setObuf rfl _))
  | pmvfy =>
    simp only [ruleOf, pmvfyRule]
    split
    · exact .inr (.setVar rfl _)
    · split
      · exact .inr (.setVar rfl _)
      · exact .inr (.trans (.setVar rfl _) (.failEntry (by simp) (fun _ => rfl)))

/-- A rule that does not write CHK leaves the value it found, also where it enters a fault. -/
theorem ruleOf_chk_of_not_writesChk {i : Instr} (hw : writesChk i.op = false) (cfg : Config) (s : Block) :
    (ruleOf cfg i s).chk = s.chk := by
  obtain ⟨c, hfault⟩ | hkeep := ruleOf_cases cfg i s
  · rw [hfault, Block.raiseFault_chk]
  · exact hkeep.chk hw

/-- All that a command can do: be discarded, enter a fault, or write what it writes. The host keeps what it
has (R52, R158). -/
theorem exec_cases {i : Instr} {s t : State} (h : exec i s = .next t) :
    t.pending = s.pending ∧ t.answers = s.answers ∧
    ((s.fault = true ∧ t.toBlock = s.toBlock) ∨
     (s.fault = false ∧ (∃ c, t.toBlock = s.raiseFault c)) ∨
     (s.fault = false ∧ KeepsUnwritten i s.toBlock t.toBlock)) := by
  rw [exec_eq_next] at h
  cases h
  refine ⟨rfl, rfl, ?_⟩
  rw [State.onBlock_toBlock]
  cases hf : s.fault with
  | true => exact .inl ⟨rfl, commandEffect_of_fault _ hf⟩
  | false =>
    rw [commandEffect_of_no_fault _ hf]
    obtain ⟨c, hc⟩ | hkeep := ruleOf_cases .standard i s.startClean
    · exact .inr (.inl ⟨rfl, c, hc⟩)
    · exact .inr (.inr ⟨rfl, KeepsUnwritten.startClean.trans hkeep⟩)

/-! VAR as a verdict (R20, R26, R132) -/

/-- The value of VAR that records a variant (R20). -/
def recorded : Variant → Var
  | .bech32 => .bech32
  | .bech32m => .bech32m

theorem recorded_ne_none (m : Variant) : recorded m ≠ .none := by
  cases m <;> decide

/-- PMVFY records a variant exactly where CHK is its constant (R132). -/
theorem pmvfyRule_var_eq_recorded_iff {s : Block} {m : Variant} :
    (pmvfyRule s).var = recorded m ↔ s.chk = variantConst m := by
  unfold pmvfyRule
  split
  · next hc => rw [Block.setVar_var, hc]; cases m <;> decide
  · next hc =>
    split
    · next hcm => rw [Block.setVar_var, hcm]; cases m <;> decide
    · next hcm =>
      rw [Block.failEntry_eCsum_var]
      exact iff_of_false (recorded_ne_none m).symm (by cases m <;> assumption)

theorem eq_of_writesVar {i : Instr} (h : writesVar i.op = true) : i = .pminit ∨ i = .pmvfy := by
  cases i <;> simp_all [Instr.op, writesVar]

/-- A rule that leaves a variant recorded found it recorded, or is PMVFY's. -/
theorem ruleOf_var_eq_recorded {cfg : Config} {i : Instr} {s : Block} {m : Variant}
    (h : (ruleOf cfg i s).var = recorded m) : s.var = recorded m ∨ i = .pmvfy := by
  obtain ⟨c, hc⟩ | hkeep := ruleOf_cases cfg i s
  · rw [hc, Block.raiseFault_var] at h
    exact absurd h.symm (recorded_ne_none m)
  · cases hw : writesVar i.op with
    | false => exact .inl ((hkeep.var hw).symm.trans h)
    | true =>
      obtain rfl | hpmvfy := eq_of_writesVar hw
      · exact absurd h.symm (recorded_ne_none m)
      · exact .inr hpmvfy

/-- A CMD write that leaves a variant recorded found it recorded, or carries the PMVFY that finds the
variant's constant in CHK. -/
theorem wordEffect_var_eq_recorded {cfg : Config} {w : Word} {s : Block} {m : Variant}
    (h : (wordEffect cfg w s).var = recorded m) :
    s.var = recorded m ∨
    (w = encode .pmvfy ∧ s.chk = variantConst m ∧ (wordEffect cfg w s).chk = s.chk) := by
  obtain ⟨-, heq⟩ | ⟨-, -, heq⟩ | ⟨-, i, hi, heq⟩ := wordEffect_cases cfg w s <;> rw [heq] at h ⊢
  · exact .inl h
  · exact absurd h.symm (recorded_ne_none m)
  · obtain hvar | rfl := ruleOf_var_eq_recorded h
    · exact .inl hvar
    · exact .inr ⟨(encode_of_decode hi).symm, (pmvfyRule_var_eq_recorded_iff (s := s.startClean)).mp h,
        ruleOf_chk_of_not_writesChk rfl cfg _⟩

/-- The same of a step: the PMVFY is the access performed. -/
theorem step_var_eq_recorded {s t : State} {m : Variant} (hst : step s = .next t) (h : t.var = recorded m) :
    s.var = recorded m ∨
    (s.pending.head? = some (cmdWrite (encode .pmvfy)) ∧ s.chk = variantConst m ∧ t.chk = s.chk) := by
  obtain ⟨-, rfl⟩ | ⟨e, rest, hp, -, ⟨w, rfl, rfl⟩ | ⟨_, _, -, -, rfl⟩ | ⟨_, -, rfl⟩ | ⟨-, rfl⟩⟩ := step_cases hst
  · exact .inl h
  · obtain hvar | ⟨rfl, hchk⟩ := wordEffect_var_eq_recorded h
    · exact .inl hvar
    · exact .inr ⟨by rw [hp, List.head?_cons], hchk⟩
  · exact .inl h
  · exact .inl h
  · exact absurd h.symm (recorded_ne_none m)

/-- Settles O4: only PMVFY's rule records a variant. -/
theorem verdictComesFromTheRegister : Obligations.VerdictComesFromTheRegister :=
  fun _ _ hst => ⟨step_var_eq_recorded (m := .bech32) hst, step_var_eq_recorded (m := .bech32m) hst⟩

/-! The polymod loses nothing of CHK (R121, R122, R127) -/

/-- The low 5 bits of the constants of R122 are independent: they tell which of them were selected. -/
theorem eq_of_genFold_standard_low_eq {a b : Quintet}
    (h : (genFold .standard a).extractLsb' 0 5 = (genFold .standard b).extractLsb' 0 5) : a = b := by
  have hker : ∀ x : Quintet, (genFold .standard x).extractLsb' 0 5 = 0 → x = 0 := by decide
  have hxor : (genFold .standard (a ^^^ b)).extractLsb' 0 5 = 0 := by
    rw [genFold_xor, BitVec.extractLsb'_xor, h]
    exact BitVec.xor_self
  exact BitVec.xor_eq_zero_iff.mp (hker _ hxor)

/-- The low 5 bits of a step are the quintet and the constants: nothing else of CHK is moved there. -/
theorem pmStep_low (cfg : Config) (c : Chk) (v : Quintet) :
    (pmStep cfg c v).extractLsb' 0 5 = v ^^^ (genFold cfg (c.extractLsb' 25 5)).extractLsb' 0 5 := by
  ext i hi
  have : i < 30 := by omega
  simp [pmStep, hi, this]

/-- The high 25 bits of a step are the low 25 of CHK, moved up, and the constants. -/
theorem pmStep_high (cfg : Config) (c : Chk) (v : Quintet) :
    (pmStep cfg c v).extractLsb' 5 25 =
      c.extractLsb' 0 25 ^^^ (genFold cfg (c.extractLsb' 25 5)).extractLsb' 5 25 := by
  have hmask : ∀ (j : Fin 25) (h : j.val < 30), (0x01FFFFFF#30)[j.val] = true := by decide
  ext i hi
  have h1 : i < 30 := by omega
  have h2 : 5 + i < 30 := by omega
  simp [pmStep, h1, h2, hmask ⟨i, hi⟩ h1]

/-- A value of CHK is its `top` and its low 25 bits. -/
theorem chk_ext {c d : Chk} (htop : c.extractLsb' 25 5 = d.extractLsb' 25 5)
    (hlow : c.extractLsb' 0 25 = d.extractLsb' 0 25) : c = d := by
  have hsplit : ∀ x : Chk, x.extractLsb' 25 5 ++ x.extractLsb' 0 25 = x := fun x =>
    BitVec.extractLsb'_append_extractLsb'_eq_extractLsb' (by rfl) |>.trans BitVec.extractLsb'_eq_self
  rw [← hsplit c, htop, hlow, hsplit]

theorem pmStep_standard_injective (v : Quintet) : Function.Injective (pmStep .standard · v) := by
  intro c d (h : pmStep .standard c v = pmStep .standard d v)
  have htop : c.extractLsb' 25 5 = d.extractLsb' 25 5 := by
    have hlow := congrArg (BitVec.extractLsb' 0 5) h
    rw [pmStep_low, pmStep_low] at hlow
    exact eq_of_genFold_standard_low_eq ((BitVec.xor_right_inj v).mp hlow)
  have hhigh := congrArg (BitVec.extractLsb' 5 25) h
  rw [pmStep_high, pmStep_high, htop] at hhigh
  exact chk_ext htop ((BitVec.xor_left_inj _).mp hhigh)

theorem pmAbsorb_standard_injective (qs : List Quintet) : Function.Injective (pmAbsorb .standard · qs) := by
  induction qs with
  | nil => exact Function.injective_id
  | cons v qs ih => exact ih.comp (pmStep_standard_injective v)

/-- Of all the rules only PMINIT's forgets CHK (R127). -/
theorem ruleOf_standard_chk_injective {i : Instr} (hi : i ≠ .pminit) (s : Block) :
    Function.Injective fun c => (ruleOf .standard i (s.setChk c)).chk := by
  cases i with
  | pminit => exact absurd rfl hi
  | pmstep v => exact pmStep_standard_injective v
  | pmabs =>
    simp only [ruleOf, pmabsRule, Block.setChk_ibuf]
    split
    · exact Function.injective_id
    · exact pmAbsorb_standard_injective _
  | pmhrp => exact pmAbsorb_standard_injective (hrpExpand s.ibuf)
  | pmsum m => exact pmAbsorb_standard_injective _
  | nop | iclr | push | mvoi | b256to58 | b58to256 | rg8to5 | rg5to8 | pmvfy =>
    exact Function.LeftInverse.injective (g := id) fun c => ruleOf_chk_of_not_writesChk rfl _ (s.setChk c)

/-- What a command other than PMINIT leaves in CHK depends on CHK, run or discarded. -/
theorem commandEffect_standard_chk_injective {i : Instr} (hi : i ≠ .pminit) (s : Block) :
    Function.Injective fun c => (commandEffect (ruleOf .standard i) (s.setChk c)).chk := by
  cases hf : s.fault with
  | true =>
    simp only [commandEffect, Block.setChk_fault, hf, if_true]
    exact Function.injective_id
  | false =>
    simp only [commandEffect, Block.setChk_fault, hf, Bool.false_eq_true, if_false]
    exact ruleOf_standard_chk_injective hi s.startClean

theorem exec_chk_ne {i : Instr} (hi : i ≠ .pminit) {s t u : State} {c : Chk} (ht : exec i s = .next t)
    (hc : c ≠ s.chk) (hu : exec i { s with chk := c } = .next u) : u.chk ≠ t.chk := by
  rw [exec_eq_next] at ht hu
  cases ht
  cases hu
  exact (commandEffect_standard_chk_injective hi s.toBlock).ne hc

/-- Settles O5: a command is discarded, enters a fault or writes what it writes, and the polymod under the
presumed constants loses nothing of CHK. -/
theorem onlyItsWritersChangeAnElement : Obligations.OnlyItsWritersChangeAnElement := by
  intro i s t ht
  obtain ⟨hpending, hanswers, hcases⟩ := exec_cases ht
  suffices hblock :
      (writesIbuf i.op = false → t.ibuf = s.ibuf) ∧ (writesChk i.op = false → t.chk = s.chk) ∧
      (writesObuf i.op = false → t.obuf = s.obuf ∨ (s.fault = false ∧ t.fault = true ∧ t.obuf = [])) ∧
      (writesVar i.op = false → t.var = s.var ∨ (s.fault = false ∧ t.fault = true ∧ t.var = .none)) ∧
      (t.fault = true → t.ibuf = s.ibuf ∧ t.chk = s.chk) by
    obtain ⟨hibuf, hchk, hobuf, hvar, hfault⟩ := hblock
    exact ⟨hibuf, hchk, hobuf, hvar, hfault, fun hi c u hc hu => exec_chk_ne hi ht hc hu, hpending, hanswers⟩
  obtain ⟨-, heq⟩ | ⟨hf, c, heq⟩ | ⟨hf, hkeep⟩ := hcases
  · rw [heq]
    exact ⟨fun _ => rfl, fun _ => rfl, fun _ => .inl rfl, fun _ => .inl rfl, fun _ => ⟨rfl, rfl⟩⟩
  · rw [heq]
    exact ⟨fun _ => rfl, fun _ => rfl, fun _ => .inr ⟨hf, rfl, rfl⟩, fun _ => .inr ⟨hf, rfl, rfl⟩,
      fun _ => ⟨rfl, rfl⟩⟩
  · refine ⟨hkeep.ibuf, hkeep.chk, fun hw => .inl (hkeep.obuf hw), fun hw => .inl (hkeep.var hw), fun ht => ?_⟩
    rw [hkeep.fault, hf] at ht
    cases ht

/-! A run of CMD writes (R11, R42, R43) -/

theorem step_of_cmdWrite {s : State} {w : Word} {rest : List HostEvent} (h : s.pending = cmdWrite w :: rest) :
    step s = .next { s with toBlock := wordEffect .standard w s.toBlock, pending := rest } := by
  have hwf : accessWf .w32 offCmd = true := by decide
  simp only [step, serve, h]
  simp only [cmdWrite, respond, atPort_of_wf _ hwf, regWrite, if_true, writeCmd_eq]
  rfl

theorem run_succ_of_step {M : Host.Core} {s t : M.State} (h : M.step s = .next t) (k : Nat) :
    M.run (k + 1) s = M.run k t := by
  rw [Host.Core.run, h]

/-- Settles O10, by induction on the words. -/
theorem programRunsInOrder : Obligations.ProgramRunsInOrder := by
  intro ws later
  induction ws with
  | nil =>
    intro s hp
    rw [List.map_nil, List.nil_append] at hp
    subst hp
    rfl
  | cons w ws ih =>
    intro s hp
    exact (run_succ_of_step (M := core) (step_of_cmdWrite hp) ws.length).trans (ih _ rfl)

/-! The fields of STATUS (R24) -/

/-- Bit `i` of a field placed at bit `k` of a word it fits in. -/
theorem getLsbD_setWidth_shiftLeft {n : Nat} (x : BitVec n) {k : Nat} (hk : n + k ≤ 32) (i : Nat) :
    (x.setWidth 32 <<< k).getLsbD i = (decide (k ≤ i) && x.getLsbD (i - k)) := by
  rw [BitVec.getLsbD_shiftLeft, BitVec.getLsbD_setWidth]
  by_cases hx : i - k < n
  · have h1 : i < 32 := by omega
    have h2 : i - k < 32 := by omega
    simp only [h1, h2, decide_true, Bool.true_and, ← decide_not, not_lt]
  · simp [BitVec.getLsbD_of_ge x (i - k) (not_lt.mp hx)]

/-- The bits of STATUS, each field from its offset on. -/
theorem getLsbD_status (s : Block) (i : Nat) :
    s.status.getLsbD i = ((BitVec.ofBool s.fault).getLsbD i ||
      decide (1 ≤ i) && (BitVec.ofBool s.fail).getLsbD (i - 1) ||
      decide (4 ≤ i) && s.err.code.getLsbD (i - 4) || decide (8 ≤ i) && s.var.code.getLsbD (i - 8)) := by
  have hfault : (flagWord s.fault).getLsbD i = (BitVec.ofBool s.fault).getLsbD i := by
    cases s.fault <;> simp [flagWord]
  unfold Block.status
  rw [BitVec.getLsbD_or, BitVec.getLsbD_or, BitVec.getLsbD_or, hfault, flagWord]
  iterate 3 rw [getLsbD_setWidth_shiftLeft _ (by norm_num)]

theorem status_fault (s : Block) : s.status.getLsbD 0 = s.fault := by
  rw [getLsbD_status]
  simp

theorem status_fail (s : Block) : s.status.getLsbD 1 = s.fail := by
  rw [getLsbD_status]
  simp

/-- Past bit 1 the flags contribute nothing. -/
theorem getLsbD_status_of_two_le (s : Block) {i : Nat} (hi : 2 ≤ i) :
    s.status.getLsbD i =
      (decide (4 ≤ i) && s.err.code.getLsbD (i - 4) || decide (8 ≤ i) && s.var.code.getLsbD (i - 8)) := by
  rw [getLsbD_status, BitVec.getLsbD_of_ge _ i (by omega), BitVec.getLsbD_of_ge _ (i - 1) (by omega)]
  simp

theorem status_reserved_low (s : Block) : s.status.extractLsb' 2 2 = 0 := by
  ext i hi
  have h4 : ¬ 4 ≤ 2 + i := by omega
  have h8 : ¬ 8 ≤ 2 + i := by omega
  rw [BitVec.getElem_extractLsb', getLsbD_status_of_two_le s (by omega)]
  simp [h4, h8]

theorem status_err (s : Block) : s.status.extractLsb' 4 4 = s.err.code := by
  ext i hi
  have h8 : ¬ 8 ≤ 4 + i := by omega
  rw [BitVec.getElem_extractLsb', getLsbD_status_of_two_le s (by omega)]
  simp [h8, hi]

theorem status_var (s : Block) : s.status.extractLsb' 8 2 = s.var.code := by
  ext i hi
  rw [BitVec.getElem_extractLsb', getLsbD_status_of_two_le s (by omega),
    BitVec.getLsbD_of_ge s.err.code _ (by omega)]
  simp [hi]

theorem status_reserved_high (s : Block) : s.status.extractLsb' 10 22 = 0 := by
  ext i hi
  rw [BitVec.getElem_extractLsb', getLsbD_status_of_two_le s (by omega),
    BitVec.getLsbD_of_ge s.err.code _ (by omega), BitVec.getLsbD_of_ge s.var.code _ (by omega)]
  simp

/-- Settles O6, field by field. -/
theorem statusShowsTheFlags : Obligations.StatusShowsTheFlags :=
  fun s => ⟨status_fault _, status_fail _, status_reserved_low _, status_err _, status_var _,
    status_reserved_high _, rfl, by decide, fun _ => rfl⟩

end Sys2Proof.Machine

namespace Sys2Proof.Machine

/-! A step, by its next access (R33, R36, R37, R41, R43) -/

theorem step_eq_respond {s : State} {e : HostEvent} {rest : List HostEvent} (h : s.pending = e :: rest) :
    step s = respond e { s with pending := rest } := by
  rw [step, serve, h]

theorem accessWf_of_aligned {off : Nat} (halign : off % 4 = 0) (hoff : off ≤ 0x2FFFC) :
    accessWf .w32 off = true := by
  have hlt : off < regionBytes := hoff.trans_lt (by decide)
  simp only [accessWf, halign, hlt, decide_true, Bool.and_self]

theorem step_of_read {s : State} {off : Nat} {rest : List HostEvent}
    (h : s.pending = .read .w32 off :: rest) (hwf : accessWf .w32 off = true) :
    step s = .next
      { s with pending := rest, answers := s.answers ++ [regRead .standard s.toBlock off] } := by
  rw [step_eq_respond h, respond, atPort_of_wf _ hwf]
  rfl

theorem step_of_ignored_write {s : State} {off : Nat} {v : Word} {rest : List HostEvent}
    (h : s.pending = .write .w32 off v :: rest) (hwf : accessWf .w32 off = true) (hoff : off ≠ offCmd) :
    step s = .next { s with pending := rest } := by
  rw [step_eq_respond h, respond, atPort_of_wf _ hwf, regWrite, if_neg hoff]

/-- A write and a read pass through the port alike. -/
theorem step_eq_atPort {s : State} {width : AccessWidth} {off : Nat} {v : Word} {rest : List HostEvent}
    (h : s.pending = .write width off v :: rest ∨ s.pending = .read width off :: rest) :
    ∃ perform, step s = atPort width off perform := by
  obtain h | h := h
  · exact ⟨_, step_eq_respond h⟩
  · exact ⟨_, step_eq_respond h⟩

/-! The accesses the port does not carry, in the order of its tests (log entry 7) -/

section port

variable {width : AccessWidth} {off : Nat} (perform : Answer)

theorem atPort_of_outside (hoff : regionBytes ≤ off) :
    atPort width off perform = .fault .outsideRegion := by
  rw [atPort, if_pos hoff]

theorem atPort_of_width_ne (hoff : off < regionBytes) (hwidth : width ≠ .w32) :
    atPort width off perform = .refused .accessWidth := by
  rw [atPort, if_neg (not_le.mpr hoff), if_pos hwidth]

theorem atPort_of_unaligned (hoff : off < regionBytes) (halign : off % 4 ≠ 0) :
    atPort .w32 off perform = .refused .unalignedAccess := by
  rw [atPort, if_neg (not_le.mpr hoff), if_neg (not_not.mpr rfl), if_pos halign]

end port

/-- Settles O9: the port's three tests, whatever the access would do. -/
theorem portStopsOtherAccesses : Obligations.PortStopsOtherAccesses := by
  intro s width off v rest hp
  obtain ⟨perform, hstep⟩ := step_eq_atPort hp
  rw [hstep]
  refine ⟨atPort_of_outside perform, atPort_of_width_ne perform, ?_⟩
  rintro hoff rfl halign
  exact atPort_of_unaligned perform hoff halign

/-- Settles O8: the port carries the write, and only CMD's runs a command. -/
theorem writeRunsOneCommandOrIsIgnored : Obligations.WriteRunsOneCommandOrIsIgnored := by
  intro s off v rest hp halign hoff
  constructor
  · rintro rfl
    exact step_of_cmdWrite hp
  · exact step_of_ignored_write hp (accessWf_of_aligned halign hoff)

/-! The register map, offset by offset (R35, R36, R38) -/

/-- The map as one chain of tests in the order of the offsets. The bounds of R6 are not needed: should the
windows overlap, both forms test IBUF's first. -/
theorem regRead_eq_map (cfg : Config) (b : Block) (off : Nat) :
    regRead cfg b off =
      (if off = 0x00004 then b.status
      else if off = 0x00008 then BitVec.ofNat 32 b.ilen
      else if off = 0x0000C then BitVec.ofNat 32 b.olen
      else if off = 0x00010 then b.chk.setWidth 32
      else if off < 0x10000 then 0
      else if off < 0x10000 + 4 * cfg.bufCap then (b.ibuf.getD ((off - 0x10000) / 4) 0).setWidth 32
      else if off < 0x20000 then 0
      else if off < 0x20000 + 4 * cfg.bufCap then (b.obuf.getD ((off - 0x20000) / 4) 0).setWidth 32
      else 0) := by
  simp only [regRead, offIbufWindow, offObufWindow, windowRead_eq]
  -- Both sides test the four registers first, and alike.
  iterate 4 refine ite_congr rfl (fun _ => rfl) fun _ => ?_
  by_cases hbelow : off < 0x10000
  · rw [if_neg (by omega), if_neg (by omega), if_pos hbelow]
  rw [if_neg hbelow]
  by_cases hibuf : off < 0x10000 + 4 * cfg.bufCap
  · rw [if_pos ⟨not_lt.mp hbelow, hibuf⟩, if_pos hibuf]
  rw [if_neg (fun h => hibuf h.2), if_neg hibuf]
  by_cases hgap : off < 0x20000
  · rw [if_neg (by omega), if_pos hgap]
  rw [if_neg hgap]
  exact if_congr (and_iff_right (not_lt.mp hgap)) rfl rfl

/-- Settles O7: the register map, and a read the port carries. -/
theorem readAnswersTheRegister : Obligations.ReadAnswersTheRegister :=
  ⟨fun cfg b off _ _ _ => regRead_eq_map cfg b off,
    fun _ _ _ hp halign hoff => step_of_read hp (accessWf_of_aligned halign hoff)⟩

end Sys2Proof.Machine

namespace Sys2Proof

/-! Decoding and encoding are inverse (R51, R54) -/

theorem decode_encode (i : Instr) : decode (encode i) = .command i := by
  rw [encode, decode_encodeFields]
  cases i with
  | pmstep v => exact decodePmstep_setWidth v
  | pmsum m => exact decodePmsum_selector m
  | nop | iclr | push | mvoi | b256to58 | b58to256 | rg8to5 | rg5to8 | pminit | pmabs | pmhrp | pmvfy => rfl

theorem decode_eq_command_iff {w : Word} {i : Instr} : decode w = .command i ↔ w = encode i :=
  ⟨fun h => (encode_of_decode h).symm, fun h => h ▸ decode_encode i⟩

theorem encode_injective : Function.Injective encode := fun i _ h =>
  Decoded.command.inj ((decode_encode i).symm.trans (decode_eq_command_iff.mpr h))

/-- Settles O13: the fields of the encoded word are read back, and each row's `arg` decoder reads its
operand back. -/
theorem decodeInvertsEncode : Obligations.DecodeInvertsEncode := decode_encode

/-- Settles O14: the fields that decode to a command are the command's own. -/
theorem encodeInvertsDecode : Obligations.EncodeInvertsDecode := fun _ _ => encode_of_decode

/-! The opcode map, field by field (R50, R53) -/

theorem word_eq_iff_fields {v w : Word} :
    v = w ↔ rsvField v = rsvField w ∧ opField v = opField w ∧ argField v = argField w := by
  refine ⟨by rintro rfl; exact ⟨rfl, rfl, rfl⟩, fun ⟨hrsv, hop, harg⟩ => ?_⟩
  have hsplit : ∀ x : Word, rsvField x ++ (argField x ++ opField x) = x := fun x => by
    unfold rsvField argField opField
    rw [BitVec.extractLsb'_append_extractLsb'_eq_extractLsb' (by rfl),
      BitVec.extractLsb'_append_extractLsb'_eq_extractLsb' (by rfl)]
    exact BitVec.extractLsb'_eq_self
  rw [← hsplit v, hrsv, hop, harg, hsplit]

theorem rsvField_and (v w : Word) : rsvField (v &&& w) = rsvField v &&& rsvField w :=
  BitVec.extractLsb'_and

theorem opField_and (v w : Word) : opField (v &&& w) = opField v &&& opField w :=
  BitVec.extractLsb'_and

theorem argField_and (v w : Word) : argField (v &&& w) = argField v &&& argField w :=
  BitVec.extractLsb'_and

/-- A row asks for `rsv = 0`, its opcode, and no bit of `arg` that its mask covers. -/
theorem row_pattern (op : Op) : op.row.pattern = encodeFields op.code 0 := by
  cases op <;> rfl

theorem rsvField_row_mask (op : Op) : rsvField op.row.mask = BitVec.allOnes 16 := by
  cases op <;> rfl

theorem opField_row_mask (op : Op) : opField op.row.mask = BitVec.allOnes 8 := by
  cases op <;> rfl

/-- `W & mask = match` of R53, said of the fields of `W`. -/
theorem matchesWord_row_iff {op : Op} {w : Word} :
    op.row.matchesWord w = true ↔
      rsvField w = 0 ∧ opField w = op.code ∧ argField op.row.mask &&& argField w = 0 := by
  rw [OpcodeRow.matchesWord, beq_iff_eq, row_pattern, word_eq_iff_fields, rsvField_and, opField_and,
    argField_and, rsvField_row_mask, opField_row_mask, BitVec.and_allOnes, BitVec.and_allOnes,
    rsvField_encodeFields, opField_encodeFields, argField_encodeFields, BitVec.and_comm (argField w)]

/-- The word that encodes a command is in the command's row, by the table of statements of Laws/PerInstr. -/
theorem matchesWord_encode (i : Instr) : i.op.row.matchesWord (encode i) = true := by
  open Laws.InItsRow in
  cases i with
  | nop => exact nop
  | iclr => exact iclr
  | push u => exact push u
  | mvoi => exact mvoi
  | b256to58 => exact b256to58
  | b58to256 => exact b58to256
  | rg8to5 => exact rg8to5
  | rg5to8 => exact rg5to8
  | pminit => exact pminit
  | pmstep v => exact pmstep v
  | pmabs => exact pmabs
  | pmhrp => exact pmhrp
  | pmsum m => exact pmsum m
  | pmvfy => exact pmvfy

/-- Every `arg` with no bit that the row's mask covers is the operand of a command of the row. -/
theorem exists_instr_of_arg {op : Op} {arg : Byte} (h : argField op.row.mask &&& arg = 0) :
    ∃ i : Instr, i.op = op ∧ i.arg = arg := by
  have hnone : argField op.row.mask = BitVec.allOnes 8 → arg = 0 := fun hmask => by
    rwa [hmask, BitVec.allOnes_and] at h
  cases op with
  | push => exact ⟨.push arg, rfl, rfl⟩
  | pmstep =>
    have hread : ∀ a : Byte, argField Op.pmstep.row.mask &&& a = 0 → (a.setWidth 5).setWidth 8 = a := by decide
    exact ⟨.pmstep (arg.setWidth 5), rfl, hread arg h⟩
  | pmsum =>
    have hread : ∀ a : Byte, argField Op.pmsum.row.mask &&& a = 0 → a = 0 ∨ a = 1 := by decide
    obtain rfl | rfl := hread arg h
    · exact ⟨.pmsum .bech32, rfl, rfl⟩
    · exact ⟨.pmsum .bech32m, rfl, rfl⟩
  | nop => exact ⟨.nop, rfl, (hnone rfl).symm⟩
  | iclr => exact ⟨.iclr, rfl, (hnone rfl).symm⟩
  | mvoi => exact ⟨.mvoi, rfl, (hnone rfl).symm⟩
  | b256to58 => exact ⟨.b256to58, rfl, (hnone rfl).symm⟩
  | b58to256 => exact ⟨.b58to256, rfl, (hnone rfl).symm⟩
  | rg8to5 => exact ⟨.rg8to5, rfl, (hnone rfl).symm⟩
  | rg5to8 => exact ⟨.rg5to8, rfl, (hnone rfl).symm⟩
  | pminit => exact ⟨.pminit, rfl, (hnone rfl).symm⟩
  | pmabs => exact ⟨.pmabs, rfl, (hnone rfl).symm⟩
  | pmhrp => exact ⟨.pmhrp, rfl, (hnone rfl).symm⟩
  | pmvfy => exact ⟨.pmvfy, rfl, (hnone rfl).symm⟩

/-- A word is in a row exactly when it decodes to a command of the row (R53). -/
theorem matchesWord_row_iff_decode {op : Op} {w : Word} :
    op.row.matchesWord w = true ↔ ∃ i, decode w = .command i ∧ i.op = op := by
  constructor
  · intro h
    obtain ⟨hrsv, hop, hunused⟩ := matchesWord_row_iff.mp h
    obtain ⟨i, rfl, harg⟩ := exists_instr_of_arg hunused
    refine ⟨i, decode_eq_command_iff.mpr ?_, rfl⟩
    rw [encode, ← hop, harg, encodeFields_fields hrsv]
  · rintro ⟨i, hi, rfl⟩
    rw [decode_eq_command_iff.mp hi]
    exact matchesWord_encode i

theorem op_eq_of_matchesWord {op op' : Op} {w : Word} (h : op.row.matchesWord w = true)
    (h' : op'.row.matchesWord w = true) : op = op' := by
  obtain ⟨i, hi, rfl⟩ := matchesWord_row_iff_decode.mp h
  obtain ⟨j, hj, rfl⟩ := matchesWord_row_iff_decode.mp h'
  rw [Decoded.command.inj (hi.symm.trans hj)]

theorem row_mem_opcodeTable (op : Op) : op.row ∈ opcodeTable := by
  cases op <;> decide

theorem row_op (op : Op) : op.row.op = op := by
  cases op <;> rfl

theorem exists_row_of_mem_opcodeTable {r : OpcodeRow} (h : r ∈ opcodeTable) : ∃ op : Op, op.row = r := by
  obtain ⟨op, -, hop⟩ := List.mem_map.mp h
  exact ⟨op, hop⟩

theorem code_high_nibble (op : Op) : op.code.extractLsb' 4 4 = op.family.nibble := by
  cases op <;> rfl

/-- Settles O15: a match fixes the three fields, and every operand the mask leaves open has its command. -/
theorem decodeAgreesWithTheOpcodeMap : Obligations.DecodeAgreesWithTheOpcodeMap := by
  refine ⟨fun w r hr => ?_, fun w r hr r' hr' h h' => ?_,
    fun op => ⟨row_mem_opcodeTable op, row_op op, code_high_nibble op⟩⟩
  · obtain ⟨op, rfl⟩ := exists_row_of_mem_opcodeTable hr
    rw [row_op]
    exact matchesWord_row_iff_decode
  · obtain ⟨op, rfl⟩ := exists_row_of_mem_opcodeTable hr
    obtain ⟨op', rfl⟩ := exists_row_of_mem_opcodeTable hr'
    rw [op_eq_of_matchesWord h h']

/-! The legal words, counted (R54) -/

/-- The commands that take no operand. -/
def plainInstrs : List Instr :=
  [.nop, .iclr, .mvoi, .b256to58, .b58to256, .rg8to5, .rg5to8, .pminit, .pmabs, .pmhrp, .pmvfy]

/-- Every command with every operand: 256 + 32 + 2 + 11 (R54). -/
def allInstrs : List Instr :=
  List.ofFn (fun k : Fin 256 => .push (.ofFin k)) ++ (List.ofFn (fun k : Fin 32 => .pmstep (.ofFin k)) ++
    ([.pmsum .bech32, .pmsum .bech32m] ++ plainInstrs))

theorem mem_allInstrs (i : Instr) : i ∈ allInstrs := by
  simp only [allInstrs, List.mem_append, List.mem_ofFn]
  cases i with
  | push u => exact .inl ⟨u.toFin, rfl⟩
  | pmstep v => exact .inr (.inl ⟨v.toFin, rfl⟩)
  | pmsum m => exact .inr (.inr (.inl (by cases m <;> decide)))
  | nop | iclr | mvoi | b256to58 | b58to256 | rg8to5 | rg5to8 | pminit | pmabs | pmhrp | pmvfy =>
    exact .inr (.inr (.inr (by decide)))

theorem allInstrs_length : allInstrs.length = 301 := by
  simp only [allInstrs, plainInstrs, List.length_append, List.length_ofFn, List.length_cons, List.length_nil]

theorem allInstrs_nodup : allInstrs.Nodup := by
  have hrest : ([Instr.pmsum .bech32, .pmsum .bech32m] ++ plainInstrs).Nodup := by decide
  have hpush : (List.ofFn fun k : Fin 256 => Instr.push (.ofFin k)).Nodup :=
    List.nodup_ofFn.mpr fun a b h => by simpa using h
  have hpmstep : (List.ofFn fun k : Fin 32 => Instr.pmstep (.ofFin k)).Nodup :=
    List.nodup_ofFn.mpr fun a b h => by simpa using h
  refine hpush.append (hpmstep.append hrest ?_) ?_
  · rw [List.disjoint_left]
    intro i hi
    obtain ⟨k, rfl⟩ := List.mem_ofFn.mp hi
    simp [plainInstrs]
  · rw [List.disjoint_left]
    intro i hi
    obtain ⟨k, rfl⟩ := List.mem_ofFn.mp hi
    simp [plainInstrs]

/-- Settles O16: the legal words are the encodings of the 301 commands, and encoding is injective. -/
theorem exactlyThreeHundredOneWordsAreLegal : Obligations.ExactlyThreeHundredOneWordsAreLegal := by
  refine ⟨allInstrs.map encode, allInstrs_nodup.map encode_injective, ?_, fun w => ?_⟩
  · rw [List.length_map, allInstrs_length]
  · simp only [List.mem_map, mem_allInstrs, true_and, decode_eq_command_iff, eq_comm]

/-! The illegal words (R55) -/

theorem exists_illegal_iff {w : Word} : (∃ why, decode w = .illegal why) ↔ ¬ ∃ i, decode w = .command i := by
  cases decode w with
  | command i => simp
  | illegal why => simp

theorem exists_command_iff {w : Word} :
    (∃ i, decode w = .command i) ↔ ∃ op : Op, op.row.matchesWord w = true :=
  ⟨fun ⟨i, hi⟩ => ⟨i.op, matchesWord_row_iff_decode.mpr ⟨i, hi, rfl⟩⟩,
    fun ⟨_, h⟩ => (matchesWord_row_iff_decode.mp h).imp fun _ hi => hi.1⟩

theorem exists_illegal_iff_no_row {w : Word} :
    (∃ why, decode w = .illegal why) ↔ ∀ r ∈ opcodeTable, r.matchesWord w = false := by
  rw [exists_illegal_iff, exists_command_iff]
  constructor
  · intro h r hr
    obtain ⟨op, rfl⟩ := exists_row_of_mem_opcodeTable hr
    exact Bool.eq_false_of_not_eq_true fun hm => h ⟨op, hm⟩
  · rintro h ⟨op, hm⟩
    exact Bool.false_ne_true ((h op.row (row_mem_opcodeTable op)).symm.trans hm)

/-- No two mnemonics share an opcode: with `arg = 0` each opcode is a command's word. -/
theorem code_injective : Function.Injective Op.code := by
  intro op op' h
  have hmatch : ∀ o : Op, o.row.matchesWord (encodeFields o.code 0) = true := fun o =>
    matchesWord_row_iff.mpr ⟨rsvField_encodeFields _ _, opField_encodeFields _ _, by
      rw [argField_encodeFields]; exact BitVec.and_zero⟩
  exact op_eq_of_matchesWord (hmatch op) (h ▸ hmatch op')

/-- The three reasons of R55. -/
theorem exists_illegal_iff_reason {w : Word} :
    (∃ why, decode w = .illegal why) ↔
      rsvField w ≠ 0 ∨ (∀ op : Op, opField w ≠ op.code) ∨
      (∃ op : Op, opField w = op.code ∧ argField op.row.mask &&& argField w ≠ 0) := by
  simp only [exists_illegal_iff, exists_command_iff, matchesWord_row_iff]
  constructor
  · intro h
    by_contra! hlegal
    obtain ⟨hrsv, ⟨op, hop⟩, harg⟩ := hlegal
    exact h ⟨op, hrsv, hop, harg op hop⟩
  · rintro hreason ⟨op, hrsv, hop, harg⟩
    obtain hr | hunassigned | ⟨op', hop', harg'⟩ := hreason
    · exact hr hrsv
    · exact hunassigned op hop
    · rw [code_injective (hop'.symm.trans hop)] at harg'
      exact harg' harg

end Sys2Proof

namespace Sys2Proof.Machine

theorem wordEffect_of_fault (cfg : Config) (w : Word) {s : Block} (hf : s.fault = true) :
    wordEffect cfg w s = s := by
  unfold wordEffect
  cases decode w with
  | command i => exact commandEffect_of_fault _ hf
  | illegal why => exact if_pos hf

theorem wordEffect_of_illegal {w : Word} {why : Illegal} (h : decode w = .illegal why) (cfg : Config)
    {s : Block} (hf : s.fault = false) : wordEffect cfg w s = s.raiseFault .eOpc := by
  simp [wordEffect, h, illegalEffect, hf]

/-- Settles O17: the negation of the opcode map, said of its rows and of the fields. -/
theorem illegalWordsAreTheOpcFault : Obligations.IllegalWordsAreTheOpcFault := by
  refine fun w => ⟨exists_illegal_iff_no_row, exists_illegal_iff_reason, ?_⟩
  rintro s hf ⟨why, hw⟩
  rw [step_of_cmdWrite (s.withNextCommand_pending w), State.withNextCommand_toBlock,
    wordEffect_of_illegal hw _ hf]
  rfl

/-! A step that takes a CMD write (R52, R55, log entry 9) -/

theorem step_of_command {s : State} {w : Word} {rest : List HostEvent} {i : Instr}
    (h : s.pending = cmdWrite w :: rest) (hi : decode w = .command i) :
    step s = exec i { s with pending := rest } := by
  rw [step_of_cmdWrite h, wordEffect_of_command _ _ hi, exec_eq_next]
  rfl

theorem decode_of_decodeTableWord {w : Nat} {i : Instr} (h : decodeTableWord 32 w = some i) :
    decode (BitVec.ofNat 32 (w % 2 ^ 32)) = .command i := by
  simp only [decodeTableWord, lt_irrefl, if_false] at h
  split at h
  · next j hj => rw [hj, Option.some.inj h]
  · cases h

/-- Settles O12: the effect of a CMD write, by FAULT and by what its word decodes to. -/
theorem stepRunsTheDecodedCommand : Obligations.StepRunsTheDecodedCommand := by
  refine ⟨fun s w rest hp => ⟨fun hf => ?_, fun hf why hw => ?_, fun i hi => step_of_command hp hi,
    fun hf i hi => ?_⟩, fun s w i _ hi => ?_⟩
  · rw [step_of_cmdWrite hp, wordEffect_of_fault _ _ hf]
  · rw [step_of_cmdWrite hp, wordEffect_of_illegal hw _ hf]
  · rw [step_of_cmdWrite hp, wordEffect_of_command _ _ hi, commandEffect_of_no_fault _ hf]
    rfl
  · exact step_of_command (s.withNextCommand_pending _) (decode_of_decodeTableWord hi)

end Sys2Proof.Machine

namespace Sys2Proof

/-- Settles O18: each legal sample is the encoding of its command, and each illegal one evaluates to its
reason. -/
theorem specSampleWordsDecode : Obligations.SpecSampleWordsDecode := by
  have hlegal : ∀ {w : Word} (i : Instr), w = encode i → decode w = .command i := fun _ h =>
    decode_eq_command_iff.mpr h
  refine ⟨hlegal .nop rfl, hlegal .iclr rfl, hlegal (.push 0x5d) rfl, hlegal (.push 0) rfl,
    hlegal (.push 255) rfl, hlegal .mvoi rfl, hlegal .b256to58 rfl, hlegal .b58to256 rfl,
    hlegal .rg8to5 rfl, hlegal .rg5to8 rfl, hlegal .pminit rfl, hlegal (.pmstep 0) rfl,
    hlegal (.pmstep 31) rfl, hlegal .pmabs rfl, hlegal .pmhrp rfl, hlegal (.pmsum .bech32) rfl,
    hlegal (.pmsum .bech32m) rfl, hlegal .pmvfy rfl, ?_⟩
  simp only [List.forall_mem_cons]
  exact ⟨⟨.unassignedOp, by decide⟩, ⟨.unusedArgBits, by decide⟩, ⟨.unusedArgBits, by decide⟩,
    ⟨.unusedArgBits, by decide⟩, ⟨.reservedBits, by decide⟩, ⟨.reservedBits, by decide⟩, by simp⟩

end Sys2Proof

namespace Sys2Proof.Machine

/-! Command lines (R58) -/

/-- The two checks on a line's operand agree: a command is named exactly where the operand is in range. -/
theorem instrOf_isSome (op : Op) (operand : Option Operand) :
    (instrOf op operand).isSome = operandOk op operand := by
  cases op with
  | push =>
    match operand with
    | none | some (.variant _) => rfl
    | some (.num n) => by_cases h : n < 256 <;> simp [instrOf, operandOk, h]
  | pmstep =>
    match operand with
    | none | some (.variant _) => rfl
    | some (.num n) => by_cases h : n < 32 <;> simp [instrOf, operandOk, h]
  | pmsum =>
    match operand with
    | none | some (.variant _) | some (.num 0) | some (.num 1) => rfl
    | some (.num (n + 2)) => simp [instrOf, operandOk]
  | nop | iclr | mvoi | b256to58 | b58to256 | rg8to5 | rg5to8 | pminit | pmabs | pmhrp | pmvfy =>
    cases operand <;> rfl

/-- The command a line names has the line's mnemonic and the line's operand. -/
theorem instrOf_eq_some {op : Op} {operand : Option Operand} {i : Instr} (h : instrOf op operand = some i) :
    i.op = op ∧ (∀ n, operand = some (.num n) → i.arg.toNat = n) ∧
      (∀ m, operand = some (.variant m) → i = .pmsum m) := by
  have hok : operandOk op operand = true := by rw [← instrOf_isSome, h]; rfl
  cases op with
  | push =>
    match operand, hok with
    | some (.num n), hok =>
      have hn : n < 256 := of_decide_eq_true hok
      simp only [instrOf, if_pos hn, Option.some.injEq] at h
      subst h
      refine ⟨rfl, ?_, nofun⟩
      rintro _ ⟨⟩
      exact Nat.mod_eq_of_lt hn
  | pmstep =>
    match operand, hok with
    | some (.num n), hok =>
      have hn : n < 32 := of_decide_eq_true hok
      simp only [instrOf, if_pos hn, Option.some.injEq] at h
      subst h
      refine ⟨rfl, ?_, nofun⟩
      rintro _ ⟨⟩
      simp only [Instr.arg, BitVec.toNat_setWidth, BitVec.toNat_ofNat]
      omega
  | pmsum =>
    match operand, hok with
    | some (.variant m), _ => cases h; exact ⟨rfl, nofun, by rintro _ ⟨⟩; rfl⟩
    | some (.num 0), _ => cases h; exact ⟨rfl, by rintro _ ⟨⟩; rfl, nofun⟩
    | some (.num 1), _ => cases h; exact ⟨rfl, by rintro _ ⟨⟩; rfl, nofun⟩
    | some (.num (n + 2)), hok => simp [operandOk] at hok
  | nop | iclr | mvoi | b256to58 | b58to256 | rg8to5 | rg5to8 | pminit | pmabs | pmhrp | pmvfy =>
    match operand, hok with
    | none, _ => cases h; exact ⟨rfl, nofun, nofun⟩

theorem assemble_of_wf {l : AsmLine} (h : l.wf = true) : assemble l = some (lineEvents l) := if_pos h

theorem assemble_of_not_wf {l : AsmLine} (h : l.wf = false) : assemble l = none :=
  if_neg (Bool.not_eq_true _ ▸ h)

theorem assemble_command_of_ok {op : Op} {operand : Option Operand} (h : operandOk op operand = true) :
    ∃ i, instrOf op operand = some i ∧ i.op = op ∧
      (∀ n, operand = some (.num n) → i.arg.toNat = n) ∧ (∀ m, operand = some (.variant m) → i = .pmsum m) ∧
      assemble (.command op operand) = some [cmdWrite (encode i)] := by
  obtain ⟨i, hi⟩ := Option.isSome_iff_exists.mp ((instrOf_isSome op operand).trans h)
  obtain ⟨hop, hnum, hvariant⟩ := instrOf_eq_some hi
  refine ⟨i, hi, hop, hnum, hvariant, ?_⟩
  rw [assemble_of_wf (l := .command op operand) h, lineEvents, hi]

theorem assemble_command_of_not_ok {op : Op} {operand : Option Operand} (h : operandOk op operand = false) :
    instrOf op operand = none ∧ assemble (.command op operand) = none :=
  ⟨Option.isNone_iff_eq_none.mp (Option.isSome_eq_false_iff.mp ((instrOf_isSome op operand).trans h)),
    assemble_of_not_wf (l := .command op operand) h⟩

/-! Raw words, pseudo-commands and directives (R58, R59) -/

theorem assemble_word (w : Word) : assemble (.word w.toNat) = some [cmdWrite w] := by
  rw [assemble_of_wf (l := .word w.toNat) (decide_eq_true w.isLt), lineEvents, BitVec.ofNat_toNat,
    BitVec.setWidth_eq]

theorem assemble_word_of_le {n : Nat} (h : 2 ^ 32 ≤ n) : assemble (.word n) = none :=
  assemble_of_not_wf (l := .word n) (decide_eq_false (not_lt.mpr h))

theorem load_wf_iff {us : List Nat} : (AsmLine.load us).wf = true ↔ ∀ n ∈ us, n < 256 := by
  simp [AsmLine.wf]

theorem assemble_load {us : List Nat} (h : ∀ n ∈ us, n < 256) :
    assemble (.load us) =
      some (cmdWrite (encode .iclr) :: us.map (fun n => cmdWrite (encode (.push (BitVec.ofNat 8 n))))) := by
  rw [assemble_of_wf (load_wf_iff.mpr h), lineEvents, loadWords, List.map_cons, List.map_map, List.map_map]
  rfl

theorem assemble_load_of_le {us : List Nat} (h : ∃ n ∈ us, 256 ≤ n) : assemble (.load us) = none := by
  obtain ⟨n, hn, hle⟩ := h
  exact assemble_of_not_wf (Bool.eq_false_of_not_eq_true fun hwf => (load_wf_iff.mp hwf n hn).not_ge hle)

/-- LOADS is LOAD of the codes of its characters (R59). -/
theorem assemble_loads {text : List Char} (h : ∀ c ∈ text, c.toNat < 128) :
    assemble (.loads text) = assemble (.load (text.map Char.toNat)) := by
  have hloads : (AsmLine.loads text).wf = true := by simpa [AsmLine.wf] using h
  have hload : (AsmLine.load (text.map Char.toNat)).wf = true := load_wf_iff.mpr fun n hn => by
    obtain ⟨c, hc, rfl⟩ := List.mem_map.mp hn
    exact (h c hc).trans (by decide)
  rw [assemble_of_wf hloads, assemble_of_wf hload, lineEvents, lineEvents, List.map_map]
  rfl

theorem assemble_rd {r : RegName} (h : r.wf = true) : assemble (.rd r) = some [.read .w32 (regOffset r)] :=
  assemble_of_wf (l := .rd r) h

theorem assemble_expect {r : RegName} {n : Nat} (hr : r.wf = true) (hn : n < 2 ^ 32) :
    assemble (.expect r n) = some [] :=
  assemble_of_wf (l := .expect r n) (by rw [AsmLine.wf, hr, decide_eq_true hn]; rfl)

/-! The text of a line (R58) -/

theorem parseLine_opText {op : Op} (h : operandOk op none = true) :
    parseLine (opText op).toList = some (.command op none) := by
  cases op with
  | push | pmstep | pmsum => cases h
  | nop | iclr | mvoi | b256to58 | b58to256 | rg8to5 | rg5to8 | pminit | pmabs | pmhrp | pmvfy => decide

theorem uncomment_append_comment (line comment : List Char) :
    uncomment (line ++ ';' :: comment) = uncomment line := by
  induction line with
  | nil => rfl
  | cons c line ih =>
    simp only [uncomment, List.cons_append, List.takeWhile_cons] at ih ⊢
    rw [ih]

/-- A line is read without its comment, and by nothing else. -/
theorem parseLine_append_comment (line comment : List Char) :
    parseLine (line ++ ';' :: comment) = parseLine line := by
  unfold parseLine
  rw [uncomment_append_comment]

/-- Settles O19: the line forms one by one, and the sample texts evaluated. -/
theorem assemblerExpandsLines : Obligations.AssemblerExpandsLines := by
  refine ⟨fun _ _ => assemble_command_of_ok, fun _ _ => assemble_command_of_not_ok, assemble_word,
    fun _ => assemble_word_of_le, fun _ => assemble_load, fun _ => assemble_load_of_le, fun _ => assemble_loads,
    rfl, ⟨rfl, rfl, rfl, rfl, rfl, fun i hi => ⟨?_, ?_⟩⟩, fun _ _ => assemble_expect, rfl,
    fun _ => parseLine_opText, ?_, ?_, ?_, ?_, ?_, ?_, ?_, ?_, ?_, ?_, ?_, rfl, parseLine_append_comment⟩
  · exact assemble_rd (r := .ibuf i) (decide_eq_true hi)
  · exact assemble_rd (r := .obuf i) (decide_eq_true hi)
  all_goals decide

end Sys2Proof.Machine

namespace Sys2Proof.Machine

/-! What the word of a command does, by FAULT (R52, R158) -/

theorem wordEffect_encode_of_no_fault (cfg : Config) (i : Instr) {b : Block} (hf : b.fault = false) :
    wordEffect cfg (encode i) b = ruleOf cfg i b.startClean := by
  rw [wordEffect_of_command _ _ (decode_encode i), commandEffect_of_no_fault _ hf]

theorem exec_of_fault {s : State} (i : Instr) (hf : s.fault = true) : exec i s = .next s := by
  rw [exec_eq_next, State.onBlock, commandEffect_of_fault _ hf]

/-- Executing a command is what the word that encodes it does to the block. -/
theorem exec_eq_wordEffect_encode (i : Instr) (s : State) :
    exec i s = .next (s.onBlock (wordEffect .standard (encode i))) := by
  rw [exec_eq_next, State.onBlock, State.onBlock, wordEffect_of_command _ _ (decode_encode i)]

/-! The buffer commands (R70 to R73) -/

theorem pushRule_of_ne {cfg : Config} {b : Block} (u : Byte) (h : b.ilen ≠ cfg.bufCap) :
    pushRule cfg u b = b.setIbuf (b.ibuf ++ [u]) := if_neg h

theorem pushRule_of_full {cfg : Config} {b : Block} (u : Byte) (h : b.ilen = cfg.bufCap) :
    pushRule cfg u b = b.raiseFault .eOvf := if_pos h

theorem wordEffect_push_of_ne {cfg : Config} {b : Block} (u : Byte) (hf : b.fault = false)
    (h : b.ilen ≠ cfg.bufCap) : wordEffect cfg (encode (.push u)) b = b.startClean.setIbuf (b.ibuf ++ [u]) :=
  (wordEffect_encode_of_no_fault cfg _ hf).trans (pushRule_of_ne u h)

/-- On a full buffer the clean start is not seen: fault entry assigns FAIL and ERR itself (R152). -/
theorem wordEffect_push_of_full {cfg : Config} {b : Block} (u : Byte) (hf : b.fault = false)
    (h : b.ilen = cfg.bufCap) : wordEffect cfg (encode (.push u)) b = b.raiseFault .eOvf :=
  (wordEffect_encode_of_no_fault cfg _ hf).trans
    ((pushRule_of_full (b := b.startClean) u h).trans (Block.startClean_raiseFault b .eOvf))

/-- Settles O20: NOP's rule keeps the clean start as it is; with FAULT = 1 even that is not made. -/
theorem nopClearsOnlyTheFailure : Obligations.NopClearsOnlyTheFailure := fun _ =>
  ⟨exec_of_no_fault .nop, exec_of_fault .nop⟩

/-- Settles O21: ICLR's rule, from the clean start. -/
theorem iclrEmptiesTheInput : Obligations.IclrEmptiesTheInput := fun _ => exec_of_no_fault .iclr

/-- Settles O22: PUSH's rule for every BUF_CAP by whether IBUF is full; the machine's answer is the same
effect at its default. -/
theorem pushAppendsOneUnit : Obligations.PushAppendsOneUnit := by
  refine ⟨fun cfg u b hf => ⟨wordEffect_push_of_ne u hf, wordEffect_push_of_full u hf⟩,
    fun u s hf => ⟨fun hroom => ?_, fun hfull => ?_⟩⟩
  · rw [exec_eq_wordEffect_encode, State.onBlock, wordEffect_push_of_ne u hf hroom]
    rfl
  · rw [exec_eq_wordEffect_encode, State.onBlock, wordEffect_push_of_full u hf hfull]
    rfl

/-- Settles O23: MVOI's rule, from the clean start, which keeps OBUF. -/
theorem mvoiCopiesTheOutput : Obligations.MvoiCopiesTheOutput := fun _ => exec_of_no_fault .mvoi

end Sys2Proof.Machine

namespace Sys2Proof.Machine

/-! The digits of a number are those of Mathlib's `Nat.digits`, most significant first (R81, R82) -/

/-- The value of a sequence is Mathlib's, which takes the digits least significant first. -/
theorem value_eq_ofDigits {w : Nat} (s : List (BitVec w)) (b : Nat) :
    value s b = Nat.ofDigits b (s.map BitVec.toNat).reverse := by
  induction s with
  | nil => rfl
  | cons d s ih =>
    rw [value_cons, ih, List.map_cons, Nat.ofDigits_reverse_cons, List.length_map]
    ring

/-- The positional sum (R81). -/
theorem value_eq_sum {w : Nat} (s : List (BitVec w)) (b : Nat) :
    value s b = ∑ i : Fin s.length, s[i].toNat * b ^ (s.length - 1 - i) := by
  induction s with
  | nil => simp
  | cons d s ih =>
    rw [value_cons, ih]
    simp [Fin.sum_univ_succ, Nat.sub_sub, Nat.add_comm 1]

/-- With fuel for all its bits, `digitsOnto` puts the library's digits before its tail. -/
theorem digitsOnto_eq_natDigits {b : Nat} (hb : 2 ≤ b) {fuel n : Nat} (h : n < 2 ^ fuel) (tail : List Byte) :
    digitsOnto b fuel n tail = (Nat.digits b n).reverse.map (BitVec.ofNat 8) ++ tail := by
  induction fuel generalizing n tail with
  | zero =>
    obtain rfl : n = 0 := by simpa using h
    simp
  | succ fuel ih =>
    unfold digitsOnto
    split
    · next h0 => simp [h0]
    · next h0 =>
      have hlt : n / b < 2 ^ fuel :=
        (Nat.div_le_div_left hb (by norm_num)).trans_lt (Nat.div_lt_of_lt_mul (by rwa [← pow_succ']))
      rw [ih hlt, Nat.digits_def' hb (Nat.pos_of_ne_zero h0)]
      simp

theorem digits_eq_natDigits {b : Nat} (hb : 2 ≤ b) (n : Nat) :
    digits n b = (Nat.digits b n).reverse.map (BitVec.ofNat 8) := by
  rw [digits, digitsOnto_eq_natDigits hb (lt_two_pow_digits_fuel n), List.append_nil]

@[simp] theorem digits_zero (b : Nat) : digits 0 b = [] := digitsOnto_of_zero b _ []

theorem digits_of_pos {b n : Nat} (hb : 2 ≤ b) (hn : 0 < n) :
    digits n b = digits (n / b) b ++ [BitVec.ofNat 8 (n % b)] := by
  rw [digits_eq_natDigits hb, digits_eq_natDigits hb, Nat.digits_def' hb hn]
  simp

theorem digits_length {b : Nat} (hb : 2 ≤ b) (n : Nat) : (digits n b).length = (Nat.digits b n).length := by
  simp [digits_eq_natDigits hb]

theorem pow_digits_length_sub_one_le {b n : Nat} (hb : 2 ≤ b) (hn : 0 < n) :
    b ^ ((digits n b).length - 1) ≤ n := by
  have hne : 0 < (digits n b).length := by rw [digits_of_pos hb hn]; simp
  rw [← Nat.lt_digits_length_iff hb, ← digits_length hb]
  omega

theorem lt_pow_digits_length {b : Nat} (hb : 2 ≤ b) (n : Nat) : n < b ^ (digits n b).length :=
  lt_pow_digitsOnto_length hb (lt_two_pow_digits_fuel n)

section digits

variable {b : Nat} (hb : 2 ≤ b) (hb' : b ≤ 256)
include hb hb'

/-- A digit of a base up to 256 fits its unit. -/
theorem map_toNat_digits (n : Nat) : (digits n b).map BitVec.toNat = (Nat.digits b n).reverse := by
  rw [digits_eq_natDigits hb, List.map_map]
  refine (List.map_congr_left fun d hd => ?_).trans (List.map_id _)
  have hlt : d < b := Nat.digits_lt_base hb (List.mem_reverse.mp hd)
  exact Nat.mod_eq_of_lt (by omega)

theorem value_digits (n : Nat) : value (digits n b) b = n := by
  rw [value_eq_ofDigits, map_toNat_digits hb hb', List.reverse_reverse, Nat.ofDigits_digits]

theorem toNat_lt_of_mem_digits {n : Nat} {u : Byte} (hu : u ∈ digits n b) : u.toNat < b := by
  have hmem : u.toNat ∈ (digits n b).map BitVec.toNat := List.mem_map_of_mem hu
  rw [map_toNat_digits hb hb', List.mem_reverse] at hmem
  exact Nat.digits_lt_base hb hmem

theorem digits_head?_ne_zero (n : Nat) : (digits n b).head? ≠ some 0 := by
  intro h
  have hlast : (Nat.digits b n).getLast? = some 0 := by
    rw [← List.head?_reverse, ← map_toNat_digits hb hb', List.head?_map, h]
    rfl
  have hn : n ≠ 0 := by
    rintro rfl
    simp at hlast
  rw [List.getLast?_eq_some_getLast (Nat.digits_ne_nil_iff_ne_zero.mpr hn)] at hlast
  exact Nat.getLast_digit_ne_zero b hn (Option.some.inj hlast)

end digits

/-! Leading zeros (R83) -/

/-- `z` units at least lead with zero exactly when each of the first `z` is one. -/
theorem le_lz_iff {s : List Byte} {z : Nat} : z ≤ lz s ↔ ∀ i < z, s[i]? = some 0 := by
  induction s generalizing z with
  | nil =>
    cases z with
    | zero => simp
    | succ z => simpa using ⟨0, Nat.zero_le z⟩
  | cons u s ih =>
    cases z with
    | zero => simp
    | succ z =>
      rw [Nat.forall_lt_succ_left]
      by_cases hu : u = 0#8
      · simp [hu, ih]
      · simp [hu, lz_cons_of_ne hu]

theorem lz_eq_zero_iff {s : List Byte} : lz s = 0 ↔ s.head? ≠ some 0 := by
  have h : 1 ≤ lz s ↔ s.head? = some 0 := by simp [le_lz_iff, List.head?_eq_getElem?]
  rw [ne_eq, ← h]
  omega

theorem lz_replicate_append (k : Nat) (s : List Byte) : lz (List.replicate k 0 ++ s) = k + lz s := by
  induction k with
  | zero => simp
  | succ k ih =>
    rw [List.replicate_succ, List.cons_append, Nat.add_right_comm, ← ih]
    exact lz_zero_cons _

theorem lz_replicate_of_ne_zero (n : Nat) {u : Byte} (hu : u ≠ 0) : lz (List.replicate n u) = 0 := by
  rw [lz_eq_zero_iff, List.head?_replicate]
  split
  · simp
  · simpa using hu

theorem lz_drop_lz (s : List Byte) : lz (s.drop (lz s)) = 0 := by
  have h := lz_replicate_append (lz s) (s.drop (lz s))
  rw [show List.replicate (lz s) 0 ++ s.drop (lz s) = s from replicate_lz_append_drop s] at h
  omega

/-- A digit sequence without leading zero is the digits of its value. -/
theorem digits_value {b : Nat} (hb : 2 ≤ b) {s : List Byte} (hs : ∀ u ∈ s, u.toNat < b) (hz : lz s = 0) :
    digits (value s b) b = s := by
  have hlt : ∀ d ∈ (s.map BitVec.toNat).reverse, d < b := by simpa using hs
  have hlast : ∀ h : (s.map BitVec.toNat).reverse ≠ [], (s.map BitVec.toNat).reverse.getLast h ≠ 0 := by
    intro h h0
    rw [List.getLast_reverse, List.head_map] at h0
    refine lz_eq_zero_iff.mp hz ?_
    rw [List.head?_eq_some_head (by simpa using h)]
    exact congrArg some (BitVec.eq_of_toNat_eq h0)
  rw [digits_eq_natDigits hb, value_eq_ofDigits, Nat.digits_ofDigits b hb _ hlt hlast, List.reverse_reverse,
    List.map_map]
  refine (List.map_congr_left fun u _ => ?_).trans (List.map_id _)
  simp

/-! Conversions (R84, R90, R91) -/

/-- A digit sequence is fixed by its leading zeros and its value (R90). -/
theorem eq_convertBase {r s : List Byte} {f t : Nat} (ht : 2 ≤ t) (hz : lz r = lz s)
    (hv : value r t = value s f) (hr : ∀ u ∈ r, u.toNat < t) : r = convertBase s f t := by
  have hrest : digits (value r t) t = r.drop (lz r) := by
    rw [← value_drop_lz]
    exact digits_value ht (fun u hu => hr u (List.mem_of_mem_drop hu)) (lz_drop_lz r)
  rw [convertBase, ← hz, ← hv, hrest]
  exact (replicate_lz_append_drop r).symm

theorem convertBase_nil (f t : Nat) : convertBase [] f t = [] := digits_zero t

section convert

variable {s : List Byte} {f t : Nat} (ht : 2 ≤ t) (ht' : t ≤ 256)
include ht ht'

theorem lz_convertBase : lz (convertBase s f t) = lz s := by
  rw [convertBase, lz_replicate_append, lz_eq_zero_iff.mpr (digits_head?_ne_zero ht ht' _), Nat.add_zero]

theorem value_convertBase : value (convertBase s f t) t = value s f := by
  rw [convertBase, value_append, value_digits ht ht']
  simp

theorem toNat_lt_of_mem_convertBase {u : Byte} (hu : u ∈ convertBase s f t) : u.toNat < t := by
  obtain hu | hu := List.mem_append.mp hu
  · rw [List.eq_of_mem_replicate hu]
    exact Nat.zero_lt_of_lt ht
  · exact toNat_lt_of_mem_digits ht ht' hu

/-- Converting back gives the sequence (R91). -/
theorem convertBase_convertBase (hf : 2 ≤ f) (hs : ∀ u ∈ s, u.toNat < f) :
    convertBase (convertBase s f t) t f = s :=
  (eq_convertBase hf (lz_convertBase ht ht').symm (value_convertBase ht ht').symm hs).symm

end convert

/-- The two directions of the converter: what both need of their bases. -/
theorem bases_of_direction {f t : Nat} (h : (f = 256 ∧ t = 58) ∨ (f = 58 ∧ t = 256)) :
    2 ≤ f ∧ 2 ≤ t ∧ t ≤ 256 := by omega

/-! The reference algorithm (R89) -/

/-- The appended digits are those of the carry. -/
theorem refFlush_eq_natDigits {t : Nat} (ht : 2 ≤ t) {fuel c : Nat} (h : c ≤ fuel) :
    refFlush t fuel c = Nat.digits t c := by
  induction fuel generalizing c with
  | zero =>
    obtain rfl : c = 0 := by omega
    simp [refFlush]
  | succ fuel ih =>
    unfold refFlush
    split
    · next h0 => simp [h0]
    · next h0 =>
      have hlt : c / t < c := Nat.div_lt_self (Nat.pos_of_ne_zero h0) ht
      rw [ih (by omega), Nat.digits_def' ht (Nat.pos_of_ne_zero h0)]

/-- The inner loop multiplies by `f` and adds the carry: its digits, then those of the carry out. -/
theorem refMulAdd_natDigits {f t : Nat} (hf : 0 < f) (ht : 2 ≤ t) (n c : Nat) :
    (refMulAdd f t (Nat.digits t n) c).1 ++ Nat.digits t (refMulAdd f t (Nat.digits t n) c).2
      = Nat.digits t (n * f + c) := by
  induction n using Nat.strong_induction_on generalizing c with
  | _ n ih =>
    obtain rfl | hn := Nat.eq_zero_or_pos n
    · simp [refMulAdd]
    · have htotal : n * f + c = c + n % t * f + t * (n / t * f) := by
        conv_lhs => rw [← Nat.mod_add_div n t]
        ring
      have hpos : 0 < n * f + c := Nat.add_pos_left (Nat.mul_pos hn hf) c
      rw [Nat.digits_def' ht hn, Nat.digits_def' ht hpos, refMulAdd, List.cons_append,
        ih _ (Nat.div_lt_self hn ht), htotal, Nat.add_mul_mod_self_left,
        Nat.add_mul_div_left _ _ (by omega), Nat.add_comm (n / t * f)]

theorem refDigit_natDigits {f t : Nat} (hf : 0 < f) (ht : 2 ≤ t) (n : Nat) (d : Byte) :
    refDigit f t (Nat.digits t n) d = Nat.digits t (n * f + d.toNat) := by
  rw [refDigit, refFlush_eq_natDigits ht le_rfl, refMulAdd_natDigits hf ht]

/-- The outer loop holds the digits of the value read so far. -/
theorem foldl_refDigit {f t : Nat} (hf : 0 < f) (ht : 2 ≤ t) (s : List Byte) :
    s.foldl (refDigit f t) [] = Nat.digits t (value s f) := by
  induction s using List.reverseRecOn with
  | nil => simp
  | append_singleton s d ih =>
    rw [List.foldl_append, ih, value_concat]
    exact refDigit_natDigits hf ht _ d

theorem convertRef_eq_convertBase {f t : Nat} (hf : 0 < f) (ht : 2 ≤ t) (s : List Byte) :
    convertRef s f t = convertBase s f t := by
  rw [convertRef, foldl_refDigit hf ht, value_drop_lz, convertBase, digits_eq_natDigits ht]

/-! The longest outputs (R88) -/

/-- A sequence of `n` largest digits stands for one less than the base to the `n`. -/
theorem value_replicate_max (n : Nat) {b : Nat} {d : Byte} (hd : d.toNat + 1 = b) :
    value (List.replicate n d) b + 1 = b ^ n := by
  induction n with
  | zero => simp
  | succ n ih =>
    rw [List.replicate_succ, value_cons, List.length_replicate, Nat.add_assoc, ih, pow_succ', ← hd]
    ring

theorem lt_convertBase_length {s : List Byte} {f t k : Nat} (ht : 2 ≤ t) (h : t ^ k ≤ value s f) :
    k < (convertBase s f t).length := by
  rw [convertBase, List.length_append]
  exact (lt_digits_length ht h).trans_le (Nat.le_add_left _ _)

/-- 5999 bytes cover 8192 base-58 digits (R88). -/
theorem convertBase_58_256_length_le {s : List Byte} (h : s.length ≤ cvMax) (hs : ∀ u ∈ s, u.toNat < 58)
    (hz : lz s = 0) : (convertBase s 58 256).length ≤ 5999 := by
  have hcover : 58 ^ cvMax ≤ 256 ^ 5999 := by decide +kernel
  have := convertBase_length_le_lz_add hs ((Nat.pow_le_pow_right (by norm_num) (by omega)).trans hcover)
  omega

/-- The largest input of `n` digits needs more than `k` where `t ^ k` is below `f ^ n` (R88). -/
theorem lt_convertBase_replicate_max_length {f t n k : Nat} {d : Byte} (ht : 2 ≤ t) (hd : d.toNat + 1 = f)
    (h : t ^ k < f ^ n) : k < (convertBase (List.replicate n d) f t).length :=
  lt_convertBase_length ht (Nat.le_of_lt_succ (h.trans_eq (value_replicate_max n hd).symm))

/-! Words of commands in a row (R59, R197) -/

@[simp] theorem runWords_nil (cfg : Config) (s : Block) : runWords cfg [] s = s := rfl

@[simp] theorem runWords_cons (cfg : Config) (w : Word) (ws : List Word) (s : Block) :
    runWords cfg (w :: ws) s = runWords cfg ws (wordEffect cfg w s) := rfl

theorem runWords_encode_cons {cfg : Config} {i : Instr} {ws : List Word} {s : Block} (hf : s.fault = false) :
    runWords cfg (encode i :: ws) s = runWords cfg ws (ruleOf cfg i s.startClean) := by
  rw [runWords_cons, wordEffect_encode_of_no_fault cfg i hf]

theorem runWords_append (cfg : Config) (vs ws : List Word) (s : Block) :
    runWords cfg (vs ++ ws) s = runWords cfg ws (runWords cfg vs s) := List.foldl_append

/-- PUSH of each unit appends them all where they fit. -/
theorem runWords_pushes {cfg : Config} {s : Block} (hf : s.fault = false) {us vs : List Byte}
    (h : us.length + vs.length ≤ cfg.bufCap) :
    runWords cfg (vs.map fun u => encode (.push u)) (s.startClean.setIbuf us)
      = s.startClean.setIbuf (us ++ vs) := by
  induction vs generalizing us with
  | nil => simp
  | cons v vs ih =>
    rw [List.length_cons] at h
    have hroom : (s.startClean.setIbuf us).ilen ≠ cfg.bufCap := by
      rw [Block.ilen_eq, Block.setIbuf_ibuf]
      omega
    rw [List.map_cons, runWords_cons, wordEffect_push_of_ne v (by simpa using hf) hroom,
      List.append_cons us v vs]
    exact ih (us := us ++ [v]) (by rw [List.length_append, List.length_singleton]; omega)

/-- `LOAD us` puts the units into IBUF (R59). -/
theorem runWords_loadWords {cfg : Config} {s : Block} (hf : s.fault = false) {us : List Byte}
    (h : us.length ≤ cfg.bufCap) : runWords cfg (loadWords us) s = s.startClean.setIbuf us := by
  rw [loadWords, runWords_encode_cons hf]
  exact runWords_pushes (us := []) hf (by simpa using h)

/-! The two rules (R85, R86) -/

section rules

variable {s : Block}

theorem b256to58Rule_of_le (h : s.ilen ≤ cvMax) : b256to58Rule s = s.setObuf (convertBase s.ibuf 256 58) :=
  if_neg (not_lt.mpr h)

theorem b256to58Rule_of_lt (h : cvMax < s.ilen) : b256to58Rule s = s.raiseFault .eLen := if_pos h

theorem b58to256Rule_of_lt (h : cvMax < s.ilen) : b58to256Rule s = s.raiseFault .eLen := if_pos h

theorem b58to256Rule_of_digits (h : s.ilen ≤ cvMax) (hd : ∀ u ∈ s.ibuf, u.toNat < 58) :
    b58to256Rule s = s.setObuf (convertBase s.ibuf 58 256) := by
  simp [b58to256Rule, not_lt.mpr h, someUnitAtLeast_eq_false.mpr hd]

theorem b58to256Rule_of_large_unit (h : s.ilen ≤ cvMax) (hd : ∃ u ∈ s.ibuf, 58 ≤ u.toNat) :
    b58to256Rule s = s.raiseFault .eUnit := by
  simp [b58to256Rule, not_lt.mpr h, someUnitAtLeast_eq_true.mpr hd]

end rules

/-- What a command answers with FAULT = 0, by what its rule makes of the clean start. -/
theorem exec_of_rule_eq {s : State} {i : Instr} {b : Block} (hf : s.fault = false)
    (h : ruleOf .standard i s.startClean = b) : exec i s = .next { s with toBlock := b } := by
  rw [exec_of_no_fault i hf, h]

/-- `LOAD b; B256TO58; MVOI; B58TO256` up to its last rule, which meets the converted sequence (R91). -/
theorem runWords_b256to58_mvoi_b58to256 {cfg : Config} (hwf : cfg.wf = true) {s : Block} (hf : s.fault = false)
    {b : List Byte} (hb : b.length ≤ cvMax) :
    runWords cfg (loadWords b ++ [encode .b256to58, encode .mvoi, encode .b58to256]) s
      = b58to256Rule ((s.startClean.setObuf (convertBase b 256 58)).setIbuf (convertBase b 256 58)) := by
  have hcap : b.length ≤ cfg.bufCap :=
    hb.trans ((by decide : cvMax ≤ cvOutMax).trans (Config.cvOutMax_le_bufCap hwf))
  have hconv : ruleOf cfg .b256to58 (s.startClean.setIbuf b).startClean
      = (s.startClean.setIbuf b).setObuf (convertBase b 256 58) := b256to58Rule_of_le hb
  rw [runWords_append, runWords_loadWords hf hcap, runWords_encode_cons, hconv, runWords_encode_cons,
    runWords_encode_cons]
  · rfl
  all_goals exact hf

/-- Settles O24: the first digit has the highest power, and the last one enters by one multiplication. -/
theorem valueIsThePositionalSum : Obligations.ValueIsThePositionalSum :=
  fun s b => ⟨value_eq_sum s b, fun d => value_concat s d b⟩

/-- Settles O25: the properties of the library's digits, read most significant first. -/
theorem digitsAreTheShortestSequence : Obligations.DigitsAreTheShortestSequence :=
  fun n _ hb hb' => ⟨digits_zero _, digits_of_pos hb, value_digits hb hb' n, digits_head?_ne_zero hb hb' n,
    fun hn => ⟨pow_digits_length_sub_one_le hb hn, lt_pow_digits_length hb n⟩⟩

/-- Settles O26: a count of leading zeros is one up to `lz` exactly. -/
theorem leadingZerosAreCounted : Obligations.LeadingZerosAreCounted :=
  fun s => ⟨lz_le_length s, le_lz_iff.mp le_rfl, fun _ _ => le_lz_iff.mpr⟩

/-- Settles O27: the leading zeros and the value are kept, and they fix a digit sequence. -/
theorem conversionKeepsZerosAndValue : Obligations.ConversionKeepsZerosAndValue := by
  intro s f t hdir hs
  obtain ⟨hf, ht, ht'⟩ := bases_of_direction hdir
  have hz : lz (convertBase s f t) = lz s := lz_convertBase ht ht'
  refine ⟨hz, value_convertBase ht ht', fun _ => toNat_lt_of_mem_convertBase ht ht', fun h0 hne => ⟨hz.trans h0, fun hnil => ?_⟩,
    convertBase_nil f t, fun _ => eq_convertBase ht⟩
  have hback := convertBase_convertBase ht ht' hf hs
  rw [hnil, convertBase_nil] at hback
  exact hne hback.symm

/-- Settles O28: the rule from the clean start, by the length. -/
theorem b256to58Converts : Obligations.B256to58Converts := fun _ hf =>
  ⟨fun hlen => exec_of_rule_eq hf (b256to58Rule_of_le hlen),
    fun hlen => exec_of_rule_eq hf (b256to58Rule_of_lt hlen)⟩

/-- Settles O29: the rule from the clean start, by the length and then by the units. -/
theorem b58to256Converts : Obligations.B58to256Converts := fun _ hf =>
  ⟨fun hlen hd => exec_of_rule_eq hf (b58to256Rule_of_digits hlen hd),
    fun hlen hd => exec_of_rule_eq hf (b58to256Rule_of_large_unit hlen hd),
    fun hlen => exec_of_rule_eq hf (b58to256Rule_of_lt hlen)⟩

/-- Settles O30: the powers of the two bases bound the lengths, and the largest inputs reach the bounds. -/
theorem conversionOutputFits : Obligations.ConversionOutputFits := by
  refine ⟨fun _ => convertBase_256_58_length_le, fun _ hlen hs =>
    ⟨convertBase_length_le_length (by norm_num) hs, convertBase_58_256_length_le hlen hs⟩, ?_, ?_⟩
  · have hbelow : 58 ^ 11187 < 256 ^ 8192 := by decide +kernel
    refine le_antisymm (convertBase_256_58_length_le (by rw [List.length_replicate])) ?_
    exact lt_convertBase_replicate_max_length (by norm_num) rfl hbelow
  · have hbelow : 256 ^ 5998 < 58 ^ 8192 := by decide +kernel
    refine le_antisymm (convertBase_58_256_length_le (by rw [List.length_replicate])
      (fun u hu => ?_) (lz_replicate_of_ne_zero 8192 (by decide))) ?_
    · rw [List.eq_of_mem_replicate hu]
      decide
    · exact lt_convertBase_replicate_max_length (by norm_num) rfl hbelow

/-- Settles O31: each direction is undone by the uniqueness of the other; MVOI hands the digits on, and only
their length can stop B58TO256. -/
theorem converterRoundTrip : Obligations.ConverterRoundTrip := by
  have hback (b : List Byte) : convertBase (convertBase b 256 58) 58 256 = b :=
    convertBase_convertBase (by norm_num) (by norm_num) (by norm_num) fun u _ => u.isLt
  refine ⟨fun b _ => hback b,
    fun d hd => convertBase_convertBase (by norm_num) (by norm_num) (by norm_num) hd, ?_⟩
  intro cfg b s hwf hf hb t
  have hlast := runWords_b256to58_mvoi_b58to256 hwf hf hb
  refine ⟨fun hlen => ?_, fun hlen => ?_⟩
  · have hdigits : ∀ u ∈ convertBase b 256 58, u.toNat < 58 := fun _ =>
      toNat_lt_of_mem_convertBase (by norm_num) (by norm_num)
    have ht : t = _ := hlast.trans (b58to256Rule_of_digits hlen hdigits)
    rw [ht]
    exact ⟨hback b, hf, rfl⟩
  · have ht : t = _ := hlast.trans (b58to256Rule_of_lt hlen)
    rw [ht]
    exact ⟨rfl, rfl, rfl⟩

/-- Settles O32: the loop holds the digits of the value read so far. -/
theorem referenceConverterAgrees : Obligations.ReferenceConverterAgrees := by
  intro s f t hdir _
  obtain ⟨hf, ht, -⟩ := bases_of_direction hdir
  exact convertRef_eq_convertBase (by omega) ht s

end Sys2Proof.Machine

namespace Sys2Proof.Machine

/-! Bits and numbers (R31, R100) -/

theorem bitsValue_cons (b : Bool) (bs : List Bool) :
    bitsValue (b :: bs) = b.toNat * 2 ^ bs.length + bitsValue bs := by
  simpa [bitsValue] using bitsValue_append [b] bs

/-- Streams of one length are told apart by their numbers. -/
theorem eq_of_bitsValue_eq {bs cs : List Bool} (hlen : bs.length = cs.length)
    (h : bitsValue bs = bitsValue cs) : bs = cs := by
  induction bs generalizing cs with
  | nil => exact (List.length_eq_zero_iff.mp hlen.symm).symm
  | cons b bs ih =>
    cases cs with
    | nil => cases hlen
    | cons c cs =>
      have hlen' : bs.length = cs.length := Nat.succ.inj hlen
      have hb := bitsValue_lt bs
      have hc := bitsValue_lt cs
      rw [bitsValue_cons, bitsValue_cons] at h
      rw [hlen'] at h hb
      cases b <;> cases c <;> simp only [Bool.toNat_true, Bool.toNat_false] at h
      · rw [ih hlen' (by omega)]
      · omega
      · omega
      · rw [ih hlen' (by omega)]

/-- A stream cut after `n` bits: its number divided by the power of the rest, and the remainder. -/
theorem bitsValue_div_mod (bs : List Bool) (n : Nat) :
    bitsValue bs / 2 ^ (bs.length - n) = bitsValue (bs.take n) ∧
      bitsValue bs % 2 ^ (bs.length - n) = bitsValue (bs.drop n) := by
  have hlt := bitsValue_lt (bs.drop n)
  have happ := bitsValue_append (bs.take n) (bs.drop n)
  rw [List.length_drop] at hlt happ
  rw [List.take_append_drop] at happ
  refine (Nat.div_mod_unique (Nat.two_pow_pos _)).mpr ⟨?_, hlt⟩
  rw [happ, Nat.mul_comm, Nat.add_comm]

theorem unitBits_getElem? {w : Nat} (u : BitVec w) {t : Nat} (ht : t < w) :
    (unitBits u)[t]? = some (u.getLsbD (w - 1 - t)) := by
  simp [unitBits, ht]

theorem unitBits_succ {w : Nat} (u : BitVec (w + 1)) :
    unitBits u = u.getLsbD w :: unitBits (u.setWidth w) := by
  rw [unitBits, List.range_succ_eq_map, List.map_cons, List.map_map, unitBits]
  refine congrArg _ (List.map_congr_left fun t ht => ?_)
  have hlt : w - 1 - t < w := by
    have := List.mem_range.mp ht
    omega
  rw [Function.comp_apply, BitVec.getLsbD_setWidth, decide_eq_true hlt, Bool.true_and]
  congr 1
  omega

theorem bitsValue_unitBits {w : Nat} (u : BitVec w) : bitsValue (unitBits u) = u.toNat := by
  induction w with
  | zero => simp [unitBits, BitVec.eq_nil u]
  | succ w ih =>
    rw [unitBits_succ, bitsValue_cons, ih, unitBits_length, BitVec.toNat_setWidth, BitVec.getLsbD,
      Nat.toNat_testBit, Nat.add_comm, Nat.mul_comm, ← Nat.mod_pow_succ, Nat.mod_eq_of_lt u.isLt]

theorem toNat_ofNat_bitsValue {w : Nat} {bs : List Bool} (h : bs.length ≤ w) :
    (BitVec.ofNat w (bitsValue bs)).toNat = bitsValue bs := by
  rw [BitVec.toNat_ofNat,
    Nat.mod_eq_of_lt ((bitsValue_lt bs).trans_le (Nat.pow_le_pow_right (by norm_num) h))]

/-- The unit that a group of its width gives has the bits of the group. -/
theorem unitBits_ofNat_bitsValue {w : Nat} {bs : List Bool} (h : bs.length = w) :
    unitBits (BitVec.ofNat w (bitsValue bs)) = bs := by
  refine eq_of_bitsValue_eq ((unitBits_length _).trans h.symm) ?_
  rw [bitsValue_unitBits, toNat_ofNat_bitsValue h.le]

/-! Streams and groups (R100, R101, R103) -/

theorem bitstream_getElem? {w : Nat} {s : List (BitVec w)} {i t : Nat} (hi : i < s.length) (ht : t < w) :
    (bitstream s)[w * i + t]? = some (s[i].getLsbD (w - 1 - t)) := by
  induction s generalizing i with
  | nil => cases hi
  | cons u s ih =>
    cases i with
    | zero =>
      rw [bitstream_cons, Nat.mul_zero, Nat.zero_add, List.getElem?_append_left (by rwa [unitBits_length]),
        unitBits_getElem? u ht, List.getElem_cons_zero]
    | succ i =>
      have hpos : w * (i + 1) + t = (unitBits u).length + (w * i + t) := by
        rw [unitBits_length]
        ring
      rw [bitstream_cons, hpos, List.getElem?_append_right (Nat.le_add_right _ _), Nat.add_sub_cancel_left]
      exact ih (Nat.lt_of_succ_lt_succ hi)

theorem bitsValue_bitstream {w : Nat} (s : List (BitVec w)) : bitsValue (bitstream s) = value s (2 ^ w) := by
  induction s with
  | nil => rfl
  | cons u s ih =>
    rw [bitstream_cons, bitsValue_append, bitsValue_unitBits, bitstream_length, value_cons, ih, pow_mul]

theorem groups_getElem? (w : Nat) {k j : Nat} (hj : j < k) (bs : List Bool) :
    (groups w k bs)[j]? = some (BitVec.ofNat w (bitsValue ((bs.drop (w * j)).take w))) := by
  induction k generalizing j bs with
  | zero => cases hj
  | succ k ih =>
    cases j with
    | zero => rfl
    | succ j =>
      rw [groups, List.getElem?_cons_succ, ih (Nat.lt_of_succ_lt_succ hj), List.drop_drop, Nat.mul_succ,
        Nat.add_comm]

/-- The last group comes after the others. -/
theorem groups_succ (w k : Nat) (bs : List Bool) :
    groups w (k + 1) bs = groups w k bs ++ [BitVec.ofNat w (bitsValue ((bs.drop (w * k)).take w))] := by
  induction k generalizing bs with
  | zero => rfl
  | succ k ih =>
    rw [groups, ih, List.drop_drop, Nat.mul_succ, Nat.add_comm w]
    rfl

/-- What follows the groups is not seen. -/
theorem groups_append {w k : Nat} {bs : List Bool} (h : w * k ≤ bs.length) (cs : List Bool) :
    groups w k (bs ++ cs) = groups w k bs := by
  induction k generalizing bs with
  | zero => rfl
  | succ k ih =>
    rw [Nat.mul_succ] at h
    have hw : w ≤ bs.length := by omega
    rw [groups, groups, List.take_append_of_le_length hw, List.drop_append_of_le_length hw,
      ih (by rw [List.length_drop]; omega)]

theorem bitstream_groups {w k : Nat} {bs : List Bool} (h : w * k ≤ bs.length) :
    bitstream (groups w k bs) = bs.take (w * k) := by
  induction k generalizing bs with
  | zero => rfl
  | succ k ih =>
    rw [Nat.mul_succ] at h
    have hw : (bs.take w).length = w := List.length_take_of_le (by omega)
    rw [groups, bitstream_cons, unitBits_ofNat_bitsValue hw, ih (by rw [List.length_drop]; omega), Nat.mul_succ,
      Nat.add_comm, List.take_add]

theorem groups_bitstream {w : Nat} (s : List (BitVec w)) : groups w s.length (bitstream s) = s := by
  induction s with
  | nil => rfl
  | cons u s ih =>
    rw [List.length_cons, groups, bitstream_cons, List.take_left' (unitBits_length u),
      List.drop_left' (unitBits_length u), ih, bitsValue_unitBits, BitVec.ofNat_toNat, BitVec.setWidth_eq]

theorem groups_bitstream_append {w : Nat} (s : List (BitVec w)) (cs : List Bool) :
    groups w s.length (bitstream s ++ cs) = s := by
  rw [groups_append (bitstream_length s).ge, groups_bitstream]

/-- Settles O33: by induction over the units, for every width. -/
theorem bitstreamIsMsbFirst : Obligations.BitstreamIsMsbFirst := fun _ s _ =>
  ⟨bitstream_length s, fun _ _ => bitstream_getElem?, bitsValue_bitstream s⟩

/-! Bytes to quintets (R101) -/

theorem take_drop_eq_map_getD {bs : List Bool} {i n : Nat} (h : i + n ≤ bs.length) :
    (bs.drop i).take n = (List.range n).map fun t => bs.getD (i + t) false := by
  refine List.ext_getElem (by simp; omega) fun t ht _ => ?_
  have : i + t < bs.length := by simp at ht; omega
  simp [this]

/-- A group of five, read most significant bit first. -/
theorem bitsValue_group_of_five {bs : List Bool} {i : Nat} (h : i + 5 ≤ bs.length) :
    bitsValue ((bs.drop i).take 5) = (bs.getD i false).toNat * 16 + (bs.getD (i + 1) false).toNat * 8 +
      (bs.getD (i + 2) false).toNat * 4 + (bs.getD (i + 3) false).toNat * 2 +
      (bs.getD (i + 4) false).toNat := by
  rw [take_drop_eq_map_getD h]
  simp only [bitsValue, List.range_succ, List.range_zero, List.map_cons, List.map_nil, List.nil_append,
    List.cons_append, List.foldl_cons, List.foldl_nil, Nat.add_zero]
  omega

/-- `p`, the number of pad bits of `n` bytes (R101). -/
def padCount (n : Nat) : Nat := 5 * quintetCount n - 8 * n

/-- The stream of the bytes with its pad bits (R101). -/
def paddedStream (s : List Byte) : List Bool := bitstream s ++ List.replicate (padCount s.length) false

theorem eight_mul_add_padCount (n : Nat) : 8 * n + padCount n = 5 * quintetCount n := by
  unfold padCount quintetCount
  omega

theorem padCount_le (n : Nat) : padCount n ≤ 4 := by
  unfold padCount quintetCount
  omega

/-- The pad bits by the residue of the length (R101). -/
theorem padCount_eq_getD (n : Nat) : padCount n = [0, 2, 4, 1, 3].getD (n % 5) 0 := by
  have hlt : n % 5 < 5 := Nat.mod_lt _ (by norm_num)
  unfold padCount quintetCount
  interval_cases h : n % 5 <;> simp only [List.getD_cons_zero, List.getD_cons_succ] <;> omega

@[simp] theorem paddedStream_length (s : List Byte) : (paddedStream s).length = 5 * quintetCount s.length := by
  rw [paddedStream, List.length_append, bitstream_length, List.length_replicate, eight_mul_add_padCount]

theorem regroup8to5_eq_groups (s : List Byte) :
    regroup8to5 s = groups 5 (quintetCount s.length) (paddedStream s) := rfl

/-- The stream of the quintets is the padded stream of the bytes. -/
theorem bitstream_regroup8to5 (s : List Byte) : bitstream (regroup8to5 s) = paddedStream s := by
  rw [regroup8to5_eq_groups, bitstream_groups (paddedStream_length s).ge,
    List.take_of_length_le (paddedStream_length s).le]

theorem value_regroup8to5 (s : List Byte) :
    value (regroup8to5 s) 32 = value s 256 * 2 ^ padCount s.length := by
  calc value (regroup8to5 s) 32 = bitsValue (bitstream (regroup8to5 s)) := (bitsValue_bitstream _).symm
    _ = bitsValue (bitstream s) * 2 ^ padCount s.length := by
      rw [bitstream_regroup8to5, paddedStream, bitsValue_append, bitsValue_replicate_false,
        List.length_replicate, Nat.add_zero]
    _ = value s 256 * 2 ^ padCount s.length := by rw [bitsValue_bitstream]; rfl

theorem toNat_regroup8to5_getElem? {s : List Byte} {j : Nat} (hj : j < quintetCount s.length) :
    ((regroup8to5 s)[j]?).map BitVec.toNat = some (bitsValue (((paddedStream s).drop (5 * j)).take 5)) := by
  rw [regroup8to5_eq_groups, groups_getElem? 5 hj, Option.map_some,
    toNat_ofNat_bitsValue (List.length_take_le _ _)]

/-- Settles O34: the quintets are the groups of the padded stream, whose number is the value of the bytes
moved up by the pad. -/
theorem regroupingBytesPadsWithZeros : Obligations.RegroupingBytesPadsWithZeros := by
  refine fun s => ⟨padCount_le s.length, padCount_eq_getD s.length, regroup8to5_length s, fun j hj => ?_,
    value_regroup8to5 s⟩
  change j < quintetCount s.length at hj
  have hgroup : 5 * j + 5 ≤ (paddedStream s).length := by
    rw [paddedStream_length]
    omega
  rw [toNat_regroup8to5_getElem? hj, bitsValue_group_of_five hgroup]
  rfl

/-! Quintets to bytes (R103) -/

theorem bitsValue_ne_zero_iff {bs : List Bool} : bitsValue bs ≠ 0 ↔ bs.any id = true := by
  rw [ne_eq, bitsValue_eq_zero_iff, Bool.not_eq_false]

/-- A 1 at or past place `n`. -/
theorem any_drop_iff {bs : List Bool} {n : Nat} :
    (bs.drop n).any id = true ↔ ∃ t, n ≤ t ∧ t < bs.length ∧ bs[t]? = some true := by
  simp only [List.any_eq_true, id, exists_eq_right, List.mem_iff_getElem?, List.getElem?_drop]
  constructor
  · rintro ⟨i, hi⟩
    exact ⟨n + i, Nat.le_add_right _ _, (List.getElem?_eq_some_iff.mp hi).1, hi⟩
  · rintro ⟨t, hle, -, ht⟩
    exact ⟨t - n, by rwa [Nat.add_sub_cancel' hle]⟩

/-- The bits of the stream after the whole bytes (R103). -/
def leftoverStream (s : List Quintet) : List Bool := (bitstream s).drop (8 * (5 * s.length / 8))

@[simp] theorem leftoverStream_length (s : List Quintet) : (leftoverStream s).length = 5 * s.length % 8 := by
  rw [leftoverStream, List.length_drop, bitstream_length, ← Nat.mod_eq_sub_mul_div]

theorem any_leftoverStream_iff {s : List Quintet} : (leftoverStream s).any id = true ↔
    ∃ t, 8 * (5 * s.length / 8) ≤ t ∧ t < 5 * s.length ∧ (bitstream s)[t]? = some true := by
  rw [leftoverStream, any_drop_iff, bitstream_length]

theorem bitstream_wholeBytes (s : List Quintet) :
    bitstream (groups 8 (5 * s.length / 8) (bitstream s)) = (bitstream s).take (8 * (5 * s.length / 8)) :=
  bitstream_groups ((Nat.mul_div_le _ _).trans (bitstream_length s).ge)

theorem bitstream_wholeBytes_append_leftoverStream (s : List Quintet) :
    bitstream (groups 8 (5 * s.length / 8) (bitstream s)) ++ leftoverStream s = bitstream s := by
  rw [bitstream_wholeBytes, leftoverStream, List.take_append_drop]

/-- The number of the quintets, cut into the whole bytes and the leftover bits. -/
theorem value_div_mod_leftover (s : List Quintet) :
    value s 32 / 2 ^ (5 * s.length % 8) = value (groups 8 (5 * s.length / 8) (bitstream s)) 256 ∧
      value s 32 % 2 ^ (5 * s.length % 8) = bitsValue (leftoverStream s) := by
  have h := bitsValue_div_mod (bitstream s) (8 * (5 * s.length / 8))
  rwa [bitstream_length, ← Nat.mod_eq_sub_mul_div, bitsValue_bitstream, ← bitstream_wholeBytes,
    bitsValue_bitstream] at h

section quintets

variable {cfg : Config} {s : List Quintet}

theorem regroup5to8_of_limit_le (h : cfg.leftoverLimit ≤ 5 * s.length % 8) : regroup5to8 cfg s = .excess :=
  if_pos h

theorem regroup5to8_of_leftover_one (h : 5 * s.length % 8 < cfg.leftoverLimit)
    (hone : (leftoverStream s).any id = true) : regroup5to8 cfg s = .pad :=
  (if_neg (not_le.mpr h)).trans (if_pos hone)

theorem regroup5to8_of_leftover_zero (h : 5 * s.length % 8 < cfg.leftoverLimit)
    (hzero : (leftoverStream s).any id = false) :
    regroup5to8 cfg s = .bytes (groups 8 (5 * s.length / 8) (bitstream s)) :=
  (if_neg (not_le.mpr h)).trans (if_neg (Bool.not_eq_true _ ▸ hzero))

theorem regroup5to8_eq_excess_iff : regroup5to8 cfg s = .excess ↔ cfg.leftoverLimit ≤ 5 * s.length % 8 := by
  refine ⟨fun h => not_lt.mp fun hlt => ?_, regroup5to8_of_limit_le⟩
  cases hany : (leftoverStream s).any id with
  | true => cases (regroup5to8_of_leftover_one hlt hany).symm.trans h
  | false => cases (regroup5to8_of_leftover_zero hlt hany).symm.trans h

end quintets

/-- Settles O36: the three results by their conditions, and the number of the leftover bits. -/
theorem regroupingQuintetsChecksTheLeftover : Obligations.RegroupingQuintetsChecksTheLeftover := by
  intro cfg s
  obtain ⟨hdiv, hmod⟩ := value_div_mod_leftover s
  refine ⟨regroup5to8_of_limit_le, fun hr h1 => regroup5to8_of_leftover_one hr (any_leftoverStream_iff.mpr h1),
    fun hr h0 => ⟨_, regroup5to8_of_leftover_zero hr ?_, groups_length _ _ _,
      fun j hj => groups_getElem? 8 hj _, hdiv.symm⟩, ?_⟩
  · exact Bool.eq_false_of_not_eq_true (mt any_leftoverStream_iff.mp h0)
  · rw [hmod, bitsValue_ne_zero_iff, any_leftoverStream_iff]

/-! The leftover count by the length (R105) -/

theorem leftover_eq_getD (n : Nat) : 5 * n % 8 = [0, 5, 2, 7, 4, 1, 6, 3].getD (n % 8) 0 := by
  have hlt : n % 8 < 8 := Nat.mod_lt _ (by norm_num)
  interval_cases h : n % 8 <;> simp only [List.getD_cons_zero, List.getD_cons_succ] <;> omega

theorem five_le_leftover_iff (n : Nat) : 5 ≤ 5 * n % 8 ↔ n % 8 ∈ [1, 3, 6] := by
  have hlt : n % 8 < 8 := Nat.mod_lt _ (by norm_num)
  rw [leftover_eq_getD]
  interval_cases n % 8 <;> decide

/-- Whole bytes only: no leftover bit to fail on. -/
theorem regroup5to8_of_mod_eight {cfg : Config} {s : List Quintet} (hlim : 1 ≤ cfg.leftoverLimit)
    (h : s.length % 8 = 0) : ∃ o, regroup5to8 cfg s = .bytes o := by
  have hnil : leftoverStream s = [] :=
    List.length_eq_zero_iff.mp ((leftoverStream_length s).trans (by omega))
  exact ⟨_, regroup5to8_of_leftover_zero (by omega) (by rw [hnil]; rfl)⟩

theorem exists_quintetCount_eq_iff (n : Nat) : n % 8 ∈ [0, 2, 4, 5, 7] ↔ ∃ m, quintetCount m = n := by
  simp only [List.mem_cons, List.not_mem_nil, or_false, quintetCount]
  constructor
  · intro h
    exact ⟨5 * n / 8, by omega⟩
  · rintro ⟨m, rfl⟩
    omega

/-- Settles O38: E_EXCESS is the limit reached by the leftover count, which the residue of the length gives. -/
theorem leftoverDependsOnTheLengthOnly : Obligations.LeftoverDependsOnTheLengthOnly := by
  refine ⟨leftover_eq_getD, fun cfg s hlim => ?_, fun cfg s hlim hex => ?_,
    fun _ _ => regroup5to8_of_mod_eight, fun n => (exists_quintetCount_eq_iff n).trans ⟨?_, ?_⟩⟩
  · rw [regroup5to8_eq_excess_iff, hlim, five_le_leftover_iff]
  · rw [regroup5to8_eq_excess_iff, hlim] at hex
    omega
  · rintro ⟨m, hm⟩
    exact ⟨List.replicate m 0, by rw [regroup8to5_length, List.length_replicate, hm]⟩
  · rintro ⟨b, hb⟩
    exact ⟨b.length, by rw [← regroup8to5_length, hb]⟩

/-! The reference algorithm (R106) -/

/-- What the accumulator holds when the bits `bs` have entered in units of `w` bits: the last
`w + toBits - 1` of them as a number, the groups cut off so far, and how many bits are left. -/
structure HoldsStream (w toBits : Nat) (bs : List Bool) (r : RegroupAcc) : Prop where
  acc_eq : r.acc = bitsValue bs % 2 ^ (w + toBits - 1)
  bits_le : r.bits ≤ w + toBits - 1
  length_eq : bs.length = toBits * r.out.length + r.bits
  out_eq : r.out.map (BitVec.ofNat toBits) = groups toBits r.out.length bs

namespace HoldsStream

variable {w toBits : Nat} {bs : List Bool} {r : RegroupAcc}

/-- The low bits of the accumulator are the bits not cut off yet. -/
theorem acc_mod (h : HoldsStream w toBits bs r) :
    r.acc % 2 ^ r.bits = bitsValue (bs.drop (toBits * r.out.length)) := by
  rw [h.acc_eq, Nat.mod_mod_of_dvd _ (Nat.pow_dvd_pow 2 h.bits_le), ← (bitsValue_div_mod bs _).2, h.length_eq,
    Nat.add_sub_cancel_left]

/-- The word that the next emission takes out of the accumulator is the next group. -/
theorem acc_shiftRight_and (h : HoldsStream w toBits bs r) (hle : toBits ≤ r.bits) :
    (r.acc >>> (r.bits - toBits)) &&& (2 ^ toBits - 1)
      = bitsValue ((bs.drop (toBits * r.out.length)).take toBits) := by
  have hlen : (bs.drop (toBits * r.out.length)).length = r.bits := by
    rw [List.length_drop, h.length_eq, Nat.add_sub_cancel_left]
  rw [← (bitsValue_div_mod _ toBits).1, hlen, ← h.acc_mod, Nat.shiftRight_eq_div_pow,
    Nat.and_two_pow_sub_one_eq_mod, ← Nat.mod_mul_right_div_self, ← pow_add, Nat.sub_add_cancel hle]

theorem emitOne (h : HoldsStream w toBits bs r) (hle : toBits ≤ r.bits) :
    HoldsStream w toBits bs { r with
      bits := r.bits - toBits, out := r.out ++ [(r.acc >>> (r.bits - toBits)) &&& (2 ^ toBits - 1)] } where
  acc_eq := h.acc_eq
  bits_le := (Nat.sub_le _ _).trans h.bits_le
  length_eq := by
    rw [List.length_append, List.length_singleton, Nat.mul_succ, h.length_eq, Nat.add_assoc,
      Nat.add_sub_cancel' hle]
  out_eq := by
    rw [List.length_append, List.length_singleton, groups_succ, List.map_append, h.out_eq,
      h.acc_shiftRight_and hle]
    rfl

/-- With a turn for every bit, less than a word is left. -/
theorem emit (h : HoldsStream w toBits bs r) (hpos : 0 < toBits) {fuel : Nat} (hfuel : r.bits ≤ fuel) :
    HoldsStream w toBits bs (refEmit toBits fuel r) ∧ (refEmit toBits fuel r).bits < toBits := by
  induction fuel generalizing r with
  | zero => exact ⟨h, by rw [refEmit]; omega⟩
  | succ fuel ih =>
    unfold refEmit
    split
    · next hle => exact ih (h.emitOne hle) (show r.bits - toBits ≤ fuel by omega)
    · next hlt => exact ⟨h, not_le.mp hlt⟩

/-- A unit enters where less than a word is left: the accumulator has room for it. -/
theorem enterUnit (h : HoldsStream w toBits bs r) (hlt : r.bits < toBits) (u : BitVec w) :
    HoldsStream w toBits (bs ++ unitBits u)
      { r with acc := ((r.acc <<< w) ||| u.toNat) &&& (2 ^ (w + toBits - 1) - 1), bits := r.bits + w } where
  acc_eq := by
    rw [← Nat.shiftLeft_add_eq_or_of_lt u.isLt, Nat.and_two_pow_sub_one_eq_mod, Nat.shiftLeft_eq, h.acc_eq,
      bitsValue_append, bitsValue_unitBits, unitBits_length]
    exact Nat.ModEq.add_right _ ((Nat.mod_modEq _ _).mul_right _)
  bits_le := show r.bits + w ≤ w + toBits - 1 by omega
  length_eq := by
    rw [List.length_append, unitBits_length, h.length_eq, Nat.add_assoc]
  out_eq := by rw [h.out_eq, groups_append (by rw [h.length_eq]; exact Nat.le_add_right _ _)]

theorem turn (h : HoldsStream w toBits bs r) (hlt : r.bits < toBits) (u : BitVec w) :
    HoldsStream w toBits (bs ++ unitBits u) (refUnit toBits r u) ∧ (refUnit toBits r u).bits < toBits :=
  (h.enterUnit hlt u).emit (Nat.zero_lt_of_lt hlt) le_rfl

/-- The whole loop. -/
theorem loop (hpos : 0 < toBits) (s : List (BitVec w)) :
    HoldsStream w toBits (bitstream s) (refLoop toBits s) ∧ (refLoop toBits s).bits < toBits := by
  induction s using List.reverseRecOn with
  | nil => exact ⟨⟨(Nat.zero_mod _).symm, Nat.zero_le _, rfl, rfl⟩, hpos⟩
  | append_singleton s u ih =>
    obtain ⟨hs, hlt⟩ := ih
    rw [bitstream_append, refLoop, List.foldl_append, bitstream_cons, bitstream_nil, List.append_nil]
    exact hs.turn hlt u

/-- The padding step: the bits left, moved up to a whole word, are the group that zero bits complete. -/
theorem acc_shiftLeft_and (h : HoldsStream w toBits bs r) (hlt : r.bits < toBits) :
    (r.acc <<< (toBits - r.bits)) &&& (2 ^ toBits - 1) = bitsValue
      (((bs ++ List.replicate (toBits - r.bits) false).drop (toBits * r.out.length)).take toBits) := by
  have hle : toBits * r.out.length ≤ bs.length := by rw [h.length_eq]; exact Nat.le_add_right _ _
  have hlen : (bs.drop (toBits * r.out.length) ++ List.replicate (toBits - r.bits) false).length = toBits := by
    rw [List.length_append, List.length_drop, List.length_replicate, h.length_eq]
    omega
  have hpow : 2 ^ toBits = 2 ^ r.bits * 2 ^ (toBits - r.bits) := by
    rw [← pow_add, Nat.add_sub_cancel' hlt.le]
  rw [List.drop_append_of_le_length hle, List.take_of_length_le hlen.le, bitsValue_append,
    bitsValue_replicate_false, List.length_replicate, ← h.acc_mod, Nat.and_two_pow_sub_one_eq_mod,
    Nat.shiftLeft_eq, hpow, Nat.mul_mod_mul_right, Nat.add_zero]

end HoldsStream

theorem regroupRef8to5_eq (s : List Byte) : regroupRef8to5 s = regroup8to5 s := by
  obtain ⟨h, hlt⟩ := HoldsStream.loop (toBits := 5) (by norm_num) s
  have hlen := h.length_eq
  rw [bitstream_length] at hlen
  obtain hzero | hpos := Nat.eq_zero_or_pos (refLoop 5 s).bits
  · have hcount : quintetCount s.length = (refLoop 5 s).out.length := by unfold quintetCount; omega
    have hpad : padCount s.length = 0 := by unfold padCount; omega
    have href : regroupRef8to5 s = (refLoop 5 s).out.map (BitVec.ofNat 5) :=
      congrArg _ (if_neg (by omega))
    rw [href, regroup8to5_eq_groups, paddedStream, hpad, hcount, List.replicate_zero, List.append_nil,
      h.out_eq]
  · have hcount : quintetCount s.length = (refLoop 5 s).out.length + 1 := by unfold quintetCount; omega
    have hpad : padCount s.length = 5 - (refLoop 5 s).bits := by unfold padCount; omega
    have hle : 5 * (refLoop 5 s).out.length ≤ (bitstream s).length := by rw [bitstream_length]; omega
    have href : regroupRef8to5 s = ((refLoop 5 s).out ++
        [((refLoop 5 s).acc <<< (5 - (refLoop 5 s).bits)) &&& (2 ^ 5 - 1)]).map (BitVec.ofNat 5) :=
      congrArg _ (if_pos hpos)
    rw [href, List.map_append, h.out_eq, h.acc_shiftLeft_and hlt, regroup8to5_eq_groups, paddedStream, hpad,
      hcount, groups_succ, groups_append hle]
    rfl

theorem regroupRef5to8_eq (cfg : Config) (s : List Quintet) : regroupRef5to8 cfg s = regroup5to8 cfg s := by
  obtain ⟨h, hlt⟩ := HoldsStream.loop (toBits := 8) (by norm_num) s
  have hlen := h.length_eq
  rw [bitstream_length] at hlen
  have hbits : (refLoop 8 s).bits = 5 * s.length % 8 := by omega
  have hcount : (refLoop 8 s).out.length = 5 * s.length / 8 := by omega
  have hone : (refLoop 8 s).acc &&& (2 ^ (5 * s.length % 8) - 1) ≠ 0 ↔
      (leftoverStream s).any id = true := by
    rw [← hbits, Nat.and_two_pow_sub_one_eq_mod, h.acc_mod, hcount, leftoverStream, bitsValue_ne_zero_iff]
  unfold regroupRef5to8 regroup5to8
  simp only [h.out_eq, hbits, hcount, hone, leftoverStream]

/-- Settles O39: the accumulator holds the end of the stream, and what it has given are the groups. -/
theorem referenceRegrouperAgrees : Obligations.ReferenceRegrouperAgrees :=
  ⟨regroupRef8to5_eq, regroupRef5to8_eq⟩

/-! The inverse law (R109): each regrouping by the stream of its result -/

theorem regroup8to5_eq_iff {b : List Byte} {q : List Quintet} :
    regroup8to5 b = q ↔ bitstream q = paddedStream b := by
  constructor
  · rintro rfl
    exact bitstream_regroup8to5 b
  · intro h
    have hlen := congrArg List.length h
    rw [paddedStream_length, bitstream_length] at hlen
    have hq : q.length = quintetCount b.length := by omega
    rw [regroup8to5_eq_groups, ← h, ← hq, groups_bitstream]

theorem regroup5to8_eq_bytes_iff {cfg : Config} {q : List Quintet} {b : List Byte} :
    regroup5to8 cfg q = .bytes b ↔ 5 * q.length % 8 < cfg.leftoverLimit ∧
      bitstream q = bitstream b ++ List.replicate (5 * q.length % 8) false := by
  constructor
  · intro h
    have hlim : 5 * q.length % 8 < cfg.leftoverLimit := not_le.mp fun hle => by
      cases (regroup5to8_of_limit_le hle).symm.trans h
    cases hany : (leftoverStream q).any id with
    | true => cases (regroup5to8_of_leftover_one hlim hany).symm.trans h
    | false =>
      cases (regroup5to8_of_leftover_zero hlim hany).symm.trans h
      have hzeros : leftoverStream q = List.replicate (5 * q.length % 8) false :=
        List.eq_replicate_iff.mpr ⟨leftoverStream_length q, by simpa using hany⟩
      rw [← hzeros, bitstream_wholeBytes_append_leftoverStream]
      exact ⟨hlim, rfl⟩
  · rintro ⟨hlim, h⟩
    have hlen := congrArg List.length h
    rw [List.length_append, bitstream_length, bitstream_length, List.length_replicate] at hlen
    have hb : b.length = 5 * q.length / 8 := by omega
    have hzero : (leftoverStream q).any id = false := by
      rw [leftoverStream, h, List.drop_left' (by rw [bitstream_length, hb]), ← bitsValue_eq_zero_iff,
        bitsValue_replicate_false]
    rw [regroup5to8_of_leftover_zero hlim hzero, h, ← hb, groups_bitstream_append]

/-- Bytes come back from their quintets where the limit admits the pad. -/
theorem regroup5to8_regroup8to5 {cfg : Config} (hlim : 5 ≤ cfg.leftoverLimit) (b : List Byte) :
    regroup5to8 cfg (regroup8to5 b) = .bytes b := by
  have hsum := eight_mul_add_padCount b.length
  have hpad := padCount_le b.length
  have hleft : 5 * (regroup8to5 b).length % 8 = padCount b.length := by
    rw [regroup8to5_length]
    omega
  rw [regroup5to8_eq_bytes_iff, hleft]
  exact ⟨by omega, bitstream_regroup8to5 b⟩

/-- Quintets come back from their bytes where the limit admits no more than a pad. -/
theorem regroup8to5_of_regroup5to8 {cfg : Config} (hlim : cfg.leftoverLimit ≤ 5) {q : List Quintet}
    {b : List Byte} (h : regroup5to8 cfg q = .bytes b) : regroup8to5 b = q := by
  have hb := regroup5to8_length h
  obtain ⟨hr, hq⟩ := regroup5to8_eq_bytes_iff.mp h
  have hpad : padCount b.length = 5 * q.length % 8 := by
    unfold padCount quintetCount
    omega
  rw [regroup8to5_eq_iff, paddedStream, hpad, hq]

/-! The two rules (R102, R104) -/

/-- What RG5TO8 does with each result of `regroup_5to8` (R104). -/
def Block.enterRegrouped (s : Block) : Regrouped → Block
  | .excess => s.failEntry .eExcess
  | .pad => s.failEntry .ePad
  | .bytes b => s.setObuf b

section rules

variable {cfg : Config} {s : Block}

theorem rg8to5Rule_of_le (h : s.ilen ≤ cfg.rg8Max) :
    rg8to5Rule cfg s = s.setObuf (ofQuintets (regroup8to5 s.ibuf)) := if_neg (not_lt.mpr h)

theorem rg8to5Rule_of_lt (h : cfg.rg8Max < s.ilen) : rg8to5Rule cfg s = s.raiseFault .eLen := if_pos h

theorem rg5to8Rule_of_lt (h : cfg.rg5Max < s.ilen) : rg5to8Rule cfg s = s.raiseFault .eLen := if_pos h

theorem rg5to8Rule_of_large_unit (h : s.ilen ≤ cfg.rg5Max) (hu : ∃ u ∈ s.ibuf, 32 ≤ u.toNat) :
    rg5to8Rule cfg s = s.raiseFault .eUnit :=
  (if_neg (not_lt.mpr h)).trans (if_pos (someUnitAtLeast_eq_true.mpr hu))

theorem rg5to8Rule_of_quintets (h : s.ilen ≤ cfg.rg5Max) (hu : ∀ u ∈ s.ibuf, u.toNat < 32) :
    rg5to8Rule cfg s = s.enterRegrouped (regroup5to8 cfg (toQuintets s.ibuf)) := by
  rw [rg5to8Rule, if_neg (not_lt.mpr h), someUnitAtLeast_eq_false.mpr hu, if_neg Bool.false_ne_true]
  cases regroup5to8 cfg (toQuintets s.ibuf) <;> rfl

end rules

theorem wordEffect_of_rule_eq {cfg : Config} {i : Instr} {b t : Block} (hf : b.fault = false)
    (h : ruleOf cfg i b.startClean = t) : wordEffect cfg (encode i) b = t :=
  (wordEffect_encode_of_no_fault cfg i hf).trans h

/-- Settles O35: the rule from the clean start, by the length. -/
theorem rg8to5Regroups : Obligations.Rg8to5Regroups :=
  ⟨fun _ _ hf => ⟨fun h => wordEffect_of_rule_eq hf (rg8to5Rule_of_le h),
      fun h => wordEffect_of_rule_eq hf (rg8to5Rule_of_lt h)⟩,
    fun s hf => ⟨fun h => ⟨_, rfl, regroup8to5_length s.ibuf, exec_of_rule_eq hf (rg8to5Rule_of_le h)⟩,
      fun h => exec_of_rule_eq hf (rg8to5Rule_of_lt h)⟩⟩

/-- Settles O37: the rule from the clean start, by the length, then by the units, then by the result. -/
theorem rg5to8Regroups : Obligations.Rg5to8Regroups := by
  refine ⟨fun cfg b hf => ⟨fun h hu => ?_, fun h hu => wordEffect_of_rule_eq hf (rg5to8Rule_of_large_unit h hu),
      fun h => wordEffect_of_rule_eq hf (rg5to8Rule_of_lt h)⟩,
    fun s hf => ⟨fun h hu => ?_, fun h hu => exec_of_rule_eq hf (rg5to8Rule_of_large_unit h hu),
      fun h => exec_of_rule_eq hf (rg5to8Rule_of_lt h)⟩⟩
  · rw [wordEffect_of_rule_eq (i := .rg5to8) hf (rg5to8Rule_of_quintets (s := b.startClean) h hu),
      Block.startClean_ibuf, toQuintets]
    cases regroup5to8 cfg (b.ibuf.map fun u => u.setWidth 5) <;> rfl
  · have hexec {r : Regrouped} (hr : regroup5to8 .standard (toQuintets s.ibuf) = r) :
        exec .rg5to8 s = .next { s with toBlock := s.startClean.enterRegrouped r } :=
      exec_of_rule_eq hf ((rg5to8Rule_of_quintets (cfg := .standard) (s := s.startClean) h hu).trans (congrArg _ hr))
    refine ⟨fun o ho => ⟨?_, hexec ho⟩, hexec, hexec⟩
    rw [regroup5to8_length ho, List.length_map]
    rfl

/-! The sequence of R109: R6 keeps the input of RG8TO5 within IBUF, and its quintets within the input of
RG5TO8 -/

theorem Config.rg8Max_le_bufCap {cfg : Config} (h : cfg.wf = true) : cfg.rg8Max ≤ cfg.bufCap := by
  simp only [Config.wf, Bool.and_eq_true, decide_eq_true_eq] at h
  omega

theorem Config.quintetCount_le_rg5Max {cfg : Config} (h : cfg.wf = true) :
    quintetCount cfg.rg8Max ≤ cfg.rg5Max := by
  simp only [Config.wf, Bool.and_eq_true, decide_eq_true_eq] at h
  simp only [quintetCount]
  omega

/-- `LOAD b; RG8TO5; MVOI; RG5TO8` up to its last rule, which meets the quintets of `b`. -/
theorem runWords_rg8to5_mvoi_rg5to8 {cfg : Config} (hwf : cfg.wf = true) {s : Block} (hf : s.fault = false)
    {b : List Byte} (hb : b.length ≤ cfg.rg8Max) :
    runWords cfg (loadWords b ++ [encode .rg8to5, encode .mvoi, encode .rg5to8]) s
      = rg5to8Rule cfg ((s.startClean.setObuf (ofQuintets (regroup8to5 b))).setIbuf
          (ofQuintets (regroup8to5 b))) := by
  have hregroup : ruleOf cfg .rg8to5 (s.startClean.setIbuf b).startClean
      = (s.startClean.setIbuf b).setObuf (ofQuintets (regroup8to5 b)) := rg8to5Rule_of_le hb
  rw [runWords_append, runWords_loadWords hf (hb.trans (Config.rg8Max_le_bufCap hwf)), runWords_encode_cons,
    hregroup, runWords_encode_cons, runWords_encode_cons]
  · rfl
  all_goals exact hf

/-- Settles O40: both directions by the streams; the commands hand the quintets on, within the lengths of R6. -/
theorem regroupingIsInverted : Obligations.RegroupingIsInverted := by
  refine fun cfg => ⟨regroup5to8_regroup8to5, fun hlim _ _ => regroup8to5_of_regroup5to8 hlim, ?_⟩
  intro hlim hwf b s hf hb t
  have hlen : (ofQuintets (regroup8to5 b)).length ≤ cfg.rg5Max := by
    rw [ofQuintets_length, regroup8to5_length]
    exact (quintetCount_mono hb).trans (Config.quintetCount_le_rg5Max hwf)
  have ht : t = _ := (runWords_rg8to5_mvoi_rg5to8 hwf hf hb).trans
    (rg5to8Rule_of_quintets hlen (someUnitAtLeast_eq_false.mp (someUnitAtLeast_ofQuintets _)))
  rw [Block.setIbuf_ibuf, toQuintets_ofQuintets, regroup5to8_regroup8to5 hlim] at ht
  rw [ht]
  exact ⟨rfl, rfl, hf⟩

end Sys2Proof.Machine

namespace Sys2Proof.Machine

/-! One step of the register (R121, R122) -/

theorem genTerm_toNat (cfg : Config) (c : Chk) (i : Fin 5) :
    (genTerm cfg (c.extractLsb' 25 5) i).toNat = if (c.toNat >>> 25).testBit i.val then cfg.gen[i].toNat else 0 := by
  have hbit : (c.extractLsb' 25 5).getLsbD i = (c.toNat >>> 25).testBit i.val := by
    rw [BitVec.getLsbD_extractLsb', decide_eq_true i.isLt, Bool.true_and, Nat.testBit_shiftRight]
    rfl
  rw [genTerm, hbit]
  split <;> rfl

/-- The low 25 bits of the register, moved up 5 places, lose nothing. -/
theorem toNat_low_shiftLeft (c : Chk) :
    ((c &&& 0x01FFFFFF) <<< 5).toNat = (c.toNat &&& 0x01ffffff) <<< 5 := by
  have hlow : c.toNat &&& 0x01ffffff < 2 ^ 25 := lt_of_le_of_lt Nat.and_le_right (by decide)
  rw [BitVec.toNat_shiftLeft, BitVec.toNat_and, Nat.shiftLeft_eq, Nat.shiftLeft_eq]
  exact Nat.mod_eq_of_lt (Nat.mul_lt_mul_of_pos_right hlow (Nat.two_pow_pos 5))

/-- Settles O41: each constant enters the fold as its term does, and no term or move leaves the 30 bits. -/
theorem polymodStepFormula : Obligations.PolymodStepFormula := by
  intro cfg c v
  have hterm (x : Nat) (i : Fin 5) :
      (if (c.toNat >>> 25).testBit i.val then x ^^^ cfg.gen[i].toNat else x)
        = x ^^^ (genTerm cfg (c.extractLsb' 25 5) i).toNat := by
    rw [genTerm_toNat]
    split
    · rfl
    · exact (Nat.xor_zero x).symm
  have hquintet : (v.setWidth 30).toNat = v.toNat := BitVec.toNat_setWidth_of_le (by decide)
  -- The fold over the five positions computes to the chain of XORs that `genFold` writes out.
  simp only [hterm, pmStep, genFold, BitVec.toNat_xor, toNat_low_shiftLeft, hquintet, ← Nat.xor_assoc]
  rfl

/-- The top bit `i` alone selects the constant `i`. -/
theorem genFold_single (cfg : Config) (i : Fin 5) : genFold cfg (1#5 <<< i.val) = cfg.gen[i] := by
  fin_cases i <;> simp [genFold, genTerm]

theorem pmStep_single (cfg : Config) (i : Fin 5) : pmStep cfg (1#30 <<< (25 + i.val)) 0 = cfg.gen[i] := by
  have hbits : ∀ i : Fin 5, (1#30 <<< (25 + i.val) &&& 0x01FFFFFF) <<< 5 = 0 ∧
      (1#30 <<< (25 + i.val)).extractLsb' 25 5 = 1#5 <<< i.val := by decide
  obtain ⟨hlow, htop⟩ := hbits i
  rw [pmStep, hlow, htop, genFold_single]
  exact BitVec.zero_xor

/-- Settles O42: a single top bit selects its constant and leaves nothing to move up. -/
theorem singleStepsIsolateTheConstants : Obligations.SingleStepsIsolateTheConstants :=
  ⟨pmStep_single, (List.map_congr_left fun i _ => pmStep_single .standard i).trans (by decide)⟩

/-! Absorbing a sequence (R123) -/

theorem pmAbsorb_append (cfg : Config) (c : Chk) (s t : List Quintet) :
    pmAbsorb cfg c (s ++ t) = pmAbsorb cfg (pmAbsorb cfg c s) t := List.foldl_append

/-- Settles O43: `pm_absorb` is the left fold of the step. -/
theorem absorbingInPieces : Obligations.AbsorbingInPieces :=
  fun cfg c v s t => ⟨pmAbsorb_nil cfg c, pmAbsorb_cons cfg c v s, pmAbsorb_append cfg c s t⟩

/-! The expansion of the human-readable part (R124) -/

theorem hrpExpand_getElem?_middle (s : List Byte) : (hrpExpand s)[s.length]? = some 0 := by
  simp [hrpExpand]

section expansion

variable {s : List Byte} {i : Nat}

theorem hrpExpand_getElem?_high (hi : i < s.length) : (hrpExpand s)[i]? = some ((s[i] >>> 5).setWidth 5) := by
  simp [hrpExpand, List.getElem?_append_left, hi]

theorem hrpExpand_getElem?_low (hi : i < s.length) :
    (hrpExpand s)[s.length + 1 + i]? = some (s[i].setWidth 5) := by
  rw [hrpExpand, List.getElem?_append_right (by simp)]
  simp [hi]

end expansion

/-- Settles O44: the three parts of the expansion have `n`, 1 and `n` quintets; the top 3 bits of a byte fit a
quintet, and reading its low 5 bits is masking them. -/
theorem hrpExpansionShape : Obligations.HrpExpansionShape := by
  refine fun s => ⟨hrpExpand_length s, hrpExpand_getElem?_middle s, fun i hi => ⟨?_, ?_⟩⟩
  · have hlt : s[i].toNat >>> 5 < 2 ^ 5 := by
      rw [Nat.shiftRight_eq_div_pow]
      omega
    rw [hrpExpand_getElem?_high hi, Option.map_some, BitVec.toNat_setWidth, BitVec.toNat_ushiftRight,
      Nat.mod_eq_of_lt hlt]
  · rw [hrpExpand_getElem?_low hi, Option.map_some, BitVec.toNat_setWidth]
    exact congrArg some (Nat.and_two_pow_sub_one_eq_mod _ 5).symm

/-! Linearity over GF(2) (R125) -/

/-- A number put below another one that was moved up past it is added to it. -/
theorem shiftLeft_xor_eq_add {k v : Nat} (h : v < 2 ^ k) (n : Nat) : n <<< k ^^^ v = n * 2 ^ k + v := by
  rw [← Nat.div_add_mod' (n <<< k ^^^ v) (2 ^ k), Nat.xor_div_two_pow, Nat.xor_mod_two_pow, Nat.shiftLeft_eq,
    Nat.mul_div_cancel _ (Nat.two_pow_pos k), Nat.mul_mod_left, Nat.div_eq_of_lt h, Nat.mod_eq_of_lt h,
    Nat.xor_zero, Nat.zero_xor]

section linear

variable (cfg : Config)

theorem pmStep_xor (a b : Chk) (v w : Quintet) :
    pmStep cfg (a ^^^ b) (v ^^^ w) = pmStep cfg a v ^^^ pmStep cfg b w := by
  have hlow : (a ^^^ b) &&& 0x01FFFFFF = (a &&& 0x01FFFFFF) ^^^ (b &&& 0x01FFFFFF) :=
    BitVec.eq_of_toNat_eq Nat.and_xor_distrib_right
  simp only [pmStep, hlow, BitVec.shiftLeft_xor_distrib, BitVec.setWidth_xor, BitVec.extractLsb'_xor, genFold_xor]
  ac_rfl

/-- A register whose `top` is 0 selects no constant: the quintet becomes its last digit in base 32. -/
theorem pmStep_of_lt {c : Chk} (h : c.toNat < 2 ^ 25) (v : Quintet) :
    pmStep cfg c v = BitVec.ofNat 30 (c.toNat * 32 + v.toNat) := by
  have htop : c.extractLsb' 25 5 = 0 := by
    apply BitVec.eq_of_toNat_eq
    rw [BitVec.extractLsb'_toNat, Nat.shiftRight_eq_div_pow, Nat.div_eq_of_lt h]
    rfl
  have hlow : c.toNat &&& 0x01ffffff = c.toNat :=
    (Nat.and_two_pow_sub_one_eq_mod _ 25).trans (Nat.mod_eq_of_lt h)
  have hnat : (((c &&& 0x01FFFFFF) <<< 5) ^^^ v.setWidth 30).toNat = c.toNat * 32 + v.toNat := by
    rw [BitVec.toNat_xor, toNat_low_shiftLeft, hlow, BitVec.toNat_setWidth_of_le (by decide),
      shiftLeft_xor_eq_add v.isLt]
    rfl
  rw [pmStep, htop, genFold_zero, ← hnat, BitVec.ofNat_toNat, BitVec.setWidth_eq]
  exact BitVec.xor_zero

theorem pmStep_zero_left (v : Quintet) : pmStep cfg 0 v = v.setWidth 30 := by
  rw [pmStep_of_lt cfg (by decide), ← BitVec.ofNat_toNat]
  simp

theorem pmStep_eq_xor (c : Chk) (v : Quintet) : pmStep cfg c v = pmStep cfg c 0 ^^^ v.setWidth 30 := by
  calc pmStep cfg c v
      = pmStep cfg (c ^^^ 0) (0 ^^^ v) := congrArg₂ (pmStep cfg) BitVec.xor_zero.symm BitVec.zero_xor.symm
    _ = pmStep cfg c 0 ^^^ pmStep cfg 0 v := pmStep_xor cfg c 0 0 v
    _ = pmStep cfg c 0 ^^^ v.setWidth 30 := by rw [pmStep_zero_left]

/-- The register of a sum is the sum of the registers, where the first absorbs zeros in place of the sequence. -/
theorem pmAbsorb_xor (a b : Chk) (x : List Quintet) :
    pmAbsorb cfg (a ^^^ b) x = pmAbsorb cfg a (List.replicate x.length 0) ^^^ pmAbsorb cfg b x := by
  induction x generalizing a b with
  | nil => rfl
  | cons v x ih =>
    have hstep : pmStep cfg (a ^^^ b) v = pmStep cfg a 0 ^^^ pmStep cfg b v :=
      (congrArg (pmStep cfg (a ^^^ b)) BitVec.zero_xor.symm).trans (pmStep_xor cfg a b 0 v)
    rw [pmAbsorb_cons, hstep, ih]
    rfl

end linear

/-- From 0, up to six quintets stand in the register as the number they are (R125). -/
theorem pmAbsorb_zero (cfg : Config) {x : List Quintet} (h : x.length ≤ 6) :
    pmAbsorb cfg 0 x = BitVec.ofNat 30 (value x 32) := by
  induction x using List.reverseRecOn with
  | nil => rfl
  | append_singleton x v ih =>
    rw [List.length_append, List.length_singleton] at h
    have hlt : value x 32 < 2 ^ 25 := by
      calc value x 32 < 32 ^ x.length := value_lt fun u _ => u.isLt
        _ ≤ 32 ^ 5 := Nat.pow_le_pow_right (by decide) (by omega)
        _ = 2 ^ 25 := by decide
    have hreg : (BitVec.ofNat 30 (value x 32)).toNat = value x 32 :=
      (BitVec.toNat_ofNat _ _).trans (Nat.mod_eq_of_lt (hlt.trans (by decide)))
    have hstep := pmStep_of_lt cfg (hreg.trans_lt hlt) v
    rw [hreg] at hstep
    rw [pmAbsorb_append, ih (by omega)]
    exact hstep.trans (congrArg _ (value_concat x v 32).symm)

/-- Six quintets are added to what six zeros leave: they meet no constant before they are at the top (R125). -/
theorem pmAbsorb_six (cfg : Config) (c : Chk) {x : List Quintet} (h : x.length = 6) :
    pmAbsorb cfg c x = pmAbsorb cfg c (List.replicate 6 0) ^^^ BitVec.ofNat 30 (value x 32) := by
  calc pmAbsorb cfg c x = pmAbsorb cfg (c ^^^ 0) x := congrArg (pmAbsorb cfg · x) BitVec.xor_zero.symm
    _ = _ := by rw [pmAbsorb_xor, pmAbsorb_zero cfg h.le, h]

/-- Settles O45: the step by its parts; the rest from a register of 0, which selects no constant. -/
theorem polymodIsLinear : Obligations.PolymodIsLinear := fun cfg =>
  ⟨pmStep_xor cfg, pmStep_eq_xor cfg, fun c _ h => pmAbsorb_six cfg c h, pmStep_zero_left cfg 0⟩

/-! The six quintets of a checksum (R126, R135) -/

theorem pack6_getElem? (m : Chk) {i : Nat} (hi : i ≤ 5) :
    (pack6 m)[i]? = some (m.extractLsb' (5 * (5 - i)) 5) := by
  interval_cases i <;> rfl

theorem value_pack6 (m : Chk) : value (pack6 m) 32 = m.toNat := by
  have hm := m.isLt
  simp only [value, pack6, List.foldl_cons, List.foldl_nil, BitVec.extractLsb'_toNat, Nat.shiftRight_eq_div_pow]
  omega

/-- Settles O46: quintet `i` is cut out at bit `5 (5 - i)`, and the cuts make up the value again. -/
theorem packedChecksumHasTheValue : Obligations.PackedChecksumHasTheValue := by
  refine fun m => ⟨pack6_length m, value_pack6 m, fun i hi => ?_⟩
  rw [pack6_getElem? m hi, Option.map_some, BitVec.extractLsb'_toNat]
  exact congrArg some (Nat.and_two_pow_sub_one_eq_mod _ 5).symm

/-- The checksum made for a constant takes the register to that constant. -/
theorem pmAbsorb_pack6 (cfg : Config) (c k : Chk) : pmAbsorb cfg c (pack6 (absorbPlaceholders cfg c ^^^ k)) = k := by
  calc pmAbsorb cfg c (pack6 (absorbPlaceholders cfg c ^^^ k))
      = absorbPlaceholders cfg c ^^^ (absorbPlaceholders cfg c ^^^ k) := by
        rw [pmAbsorb_six cfg c (pack6_length _), value_pack6, BitVec.ofNat_toNat, BitVec.setWidth_eq]
        rfl
    _ = k := by rw [← BitVec.xor_assoc, BitVec.xor_self, BitVec.zero_xor]

/-! The six rules (R127 to R132) -/

section rules

variable {cfg : Config} {s : Block}

theorem pmabsRule_of_quintets (h : ∀ u ∈ s.ibuf, u.toNat < 32) :
    pmabsRule cfg s = s.setChk (pmAbsorb cfg s.chk (toQuintets s.ibuf)) := by
  rw [pmabsRule, someUnitAtLeast_eq_false.mpr h, if_neg Bool.false_ne_true]

theorem pmabsRule_of_large_unit (h : ∃ u ∈ s.ibuf, 32 ≤ u.toNat) : pmabsRule cfg s = s.raiseFault .eUnit :=
  if_pos (someUnitAtLeast_eq_true.mpr h)

/-- Cells that hold quintets pass the check of PMABS. -/
theorem pmabsRule_of_ibuf_eq {x : List Quintet} (h : s.ibuf = ofQuintets x) :
    pmabsRule cfg s = s.setChk (pmAbsorb cfg s.chk x) := by
  have hlt : ∀ u ∈ s.ibuf, u.toNat < 32 := h ▸ someUnitAtLeast_eq_false.mp (someUnitAtLeast_ofQuintets x)
  rw [pmabsRule_of_quintets hlt, h, toQuintets_ofQuintets]

theorem pmvfyRule_of_variantConst {m : Variant} (h : s.chk = variantConst m) :
    pmvfyRule s = s.setVar (recorded m) := by
  rw [pmvfyRule, h]
  cases m <;> rfl

theorem pmvfyRule_of_neither (h : s.chk ≠ constBech32) (hm : s.chk ≠ constBech32m) :
    pmvfyRule s = (s.setVar .none).failEntry .eCsum :=
  (if_neg h).trans (if_neg hm)

theorem pmvfyRule_fault (s : Block) : (pmvfyRule s).fault = s.fault := by
  unfold pmvfyRule
  split
  · rfl
  · split <;> rfl

theorem pmvfyRule_chk (s : Block) : (pmvfyRule s).chk = s.chk :=
  ruleOf_chk_of_not_writesChk (i := .pmvfy) rfl .standard s

end rules

/-- Settles O47: PMINIT's rule, from the clean start. -/
theorem pminitSeedsTheRegister : Obligations.PminitSeedsTheRegister := fun _ => exec_of_no_fault .pminit

/-- Settles O48: PMSTEP's rule, from the clean start. -/
theorem pmstepAbsorbsItsQuintet : Obligations.PmstepAbsorbsItsQuintet := fun v _ => exec_of_no_fault (.pmstep v)

/-- Settles O49: PMABS's rule by the units; a fault entry writes no CHK. -/
theorem pmabsAbsorbsTheInput : Obligations.PmabsAbsorbsTheInput := fun _ hf =>
  ⟨fun h => exec_of_rule_eq hf (pmabsRule_of_quintets h), fun h => exec_of_rule_eq hf (pmabsRule_of_large_unit h)⟩

/-- Settles O50: PMHRP's rule, from the clean start. -/
theorem pmhrpAbsorbsTheExpansion : Obligations.PmhrpAbsorbsTheExpansion := fun _ => exec_of_no_fault .pmhrp

theorem variantConst_eq_ite (m : Variant) : variantConst m = if m = .bech32 then 0x00000001 else 0x2BC830A3 := by
  cases m <;> rfl

/-- Settles O51: PMSUM's rule, which XORs the constant into its output only. -/
theorem pmsumWritesTheChecksum : Obligations.PmsumWritesTheChecksum := fun m _ hf =>
  ⟨_, variantConst m, _, exec_of_no_fault (.pmsum m) hf, rfl, variantConst_eq_ite m, rfl, rfl⟩

/-- Settles O52: PMVFY's rule by which of the two constants CHK is. -/
theorem pmvfyComparesBothConstants : Obligations.PmvfyComparesBothConstants := fun _ hf =>
  ⟨fun h => exec_of_rule_eq hf (pmvfyRule_of_variantConst (m := .bech32) h),
    fun h => exec_of_rule_eq hf (pmvfyRule_of_variantConst (m := .bech32m) h),
    fun h hm => exec_of_rule_eq hf (pmvfyRule_of_neither h hm)⟩

/-! The sequences of a creation and a verification (R133, R134, R135) -/

/-- The block that has absorbed since PMINIT: IBUF holds what was last loaded, CHK the register. -/
def Block.absorbed (s : Block) (us : List Byte) (c : Chk) : Block :=
  ((pminitRule s.startClean).setIbuf us).setChk c

section sequences

variable {cfg : Config} {s : Block} {h : List Byte}

/-- `PMINIT; LOAD h; PMHRP`. -/
theorem runWords_hrp (hf : s.fault = false) (hh : h.length ≤ cfg.bufCap) (ws : List Word) :
    runWords cfg ([encode .pminit] ++ loadWords h ++ encode .pmhrp :: ws) s
      = runWords cfg ws (s.absorbed h (pmAbsorb cfg 1 (hrpExpand h))) := by
  rw [List.singleton_append, List.cons_append, runWords_encode_cons hf, runWords_append,
    runWords_loadWords (s := ruleOf cfg .pminit s.startClean) hf hh]
  exact runWords_encode_cons hf

/-- `PMINIT; LOAD h; PMHRP; LOAD x; PMABS`. -/
theorem runWords_hrp_data (hf : s.fault = false) (hh : h.length ≤ cfg.bufCap) {x : List Quintet}
    (hx : x.length ≤ cfg.bufCap) (ws : List Word) :
    runWords cfg ([encode .pminit] ++ loadWords h ++ [encode .pmhrp] ++ loadWords (ofQuintets x)
        ++ encode .pmabs :: ws) s
      = runWords cfg ws (s.absorbed (ofQuintets x) (pmAbsorb cfg 1 (hrpExpand h ++ x))) := by
  have hassoc : [encode .pminit] ++ loadWords h ++ [encode .pmhrp] ++ loadWords (ofQuintets x) ++ encode .pmabs :: ws
      = [encode .pminit] ++ loadWords h ++ encode .pmhrp :: (loadWords (ofQuintets x) ++ encode .pmabs :: ws) := by
    simp
  rw [hassoc, runWords_hrp hf hh, runWords_append, runWords_loadWords (s := s.absorbed h _) hf (by simpa using hx),
    pmAbsorb_append]
  refine Eq.trans (runWords_encode_cons ?_) (congrArg (runWords cfg ws) (pmabsRule_of_ibuf_eq rfl))
  exact hf

/-- The creation sequence ends with PMSUM's rule on the register of the whole sequence. -/
theorem runWords_creationWords (hf : s.fault = false) (hh : h.length ≤ cfg.bufCap) {d : List Quintet}
    (hd : d.length ≤ cfg.bufCap) (m : Variant) :
    runWords cfg (creationWords h d m) s
      = pmsumRule cfg m (s.absorbed (ofQuintets d) (pmAbsorb cfg 1 (hrpExpand h ++ d))) :=
  (runWords_hrp_data hf hh hd _).trans (runWords_encode_cons hf)

/-- What the creation sequence leaves in OBUF, read back as quintets. -/
theorem toQuintets_obuf_creationWords (hf : s.fault = false) (hh : h.length ≤ cfg.bufCap) {d : List Quintet}
    (hd : d.length ≤ cfg.bufCap) (m : Variant) :
    toQuintets (runWords cfg (creationWords h d m) s).obuf
      = pack6 (absorbPlaceholders cfg (pmAbsorb cfg 1 (hrpExpand h ++ d)) ^^^ variantConst m) := by
  rw [runWords_creationWords hf hh hd]
  exact toQuintets_ofQuintets _

/-- The verification sequence ends with PMVFY's rule on the register of the whole sequence. -/
theorem runWords_verificationWords (hf : s.fault = false) (hh : h.length ≤ cfg.bufCap) {x : List Quintet}
    (hx : x.length ≤ cfg.bufCap) :
    runWords cfg (verificationWords h x) s
      = pmvfyRule (s.absorbed (ofQuintets x) (pmAbsorb cfg 1 (hrpExpand h ++ x))) :=
  (runWords_hrp_data hf hh hx _).trans (runWords_encode_cons hf)

end sequences

/-- Settles O53: both sequences end with PMSUM's rule; its placeholders continue the sequence absorbed. -/
theorem creationSequenceGivesTheChecksum : Obligations.CreationSequenceGivesTheChecksum := by
  intro cfg h m s hf hh
  constructor
  · intro d hd t
    have ht : t = _ := runWords_creationWords hf hh hd m
    rw [ht, pmAbsorb_append _ _ (hrpExpand h ++ d)]
    exact ⟨hf, rfl, rfl⟩
  · intro t
    have ht : t = pmsumRule cfg m _ := (runWords_hrp hf hh _).trans (runWords_encode_cons hf)
    rw [ht, pmAbsorb_append]
    exact ⟨hf, rfl, rfl⟩

/-- Settles O54: the sequence ends with PMVFY's rule, whose cases are by the register. -/
theorem verificationSequenceGivesTheVerdict : Obligations.VerificationSequenceGivesTheVerdict := by
  intro cfg h x s hf hh hx t c
  have ht : t = pmvfyRule (s.absorbed (ofQuintets x) c) := runWords_verificationWords hf hh hx
  rw [ht]
  refine ⟨(pmvfyRule_fault _).trans hf, pmvfyRule_chk _, fun hc => ?_, fun hc => ?_, fun hc hcm => ?_⟩
  · rw [pmvfyRule_of_variantConst (m := .bech32) hc]
    exact ⟨rfl, rfl⟩
  · rw [pmvfyRule_of_variantConst (m := .bech32m) hc]
    exact ⟨rfl, rfl⟩
  · rw [pmvfyRule_of_neither hc hcm]
    exact ⟨rfl, rfl, rfl⟩

theorem recorded_eq_ite (m : Variant) : recorded m = if m = .bech32 then .bech32 else .bech32m := by
  cases m <;> rfl

/-- Settles O55: the checksum takes the register to the constant of its variant, and PMVFY's rule records the
variant of that constant. -/
theorem createdChecksumVerifies : Obligations.CreatedChecksumVerifies := by
  intro cfg m
  refine ⟨pmAbsorb_pack6 cfg, ?_, ?_⟩
  · intro s t hs ht hchk hibuf u
    rw [wordEffect_encode_of_no_fault cfg _ hs] at hibuf
    have hpmabs : pmabsRule cfg t.startClean = t.startClean.setChk (variantConst m) := by
      rw [pmabsRule_of_ibuf_eq (s := t.startClean) hibuf, Block.startClean_chk, hchk]
      exact congrArg t.startClean.setChk (pmAbsorb_pack6 cfg s.chk (variantConst m))
    have hu : u = (t.startClean.setChk (variantConst m)).setVar (recorded m) := by
      calc u = runWords cfg [encode .pmvfy] (pmabsRule cfg t.startClean) := runWords_encode_cons ht
        _ = pmvfyRule (t.startClean.setChk (variantConst m)) := by rw [hpmabs]; exact runWords_encode_cons ht
        _ = _ := pmvfyRule_of_variantConst rfl
    rw [hu, ← recorded_eq_ite]
    exact ⟨ht, rfl, rfl⟩
  · intro h d s t hs ht hh hd x u
    have hx : x = pack6 (absorbPlaceholders cfg (pmAbsorb cfg 1 (hrpExpand h ++ d)) ^^^ variantConst m) :=
      toQuintets_obuf_creationWords hs hh (by omega) m
    have hc : pmAbsorb cfg 1 (hrpExpand h ++ (d ++ x)) = variantConst m := by
      rw [← List.append_assoc, pmAbsorb_append, hx, pmAbsorb_pack6]
    have hlen : (d ++ x).length ≤ cfg.bufCap := by
      rwa [List.length_append, hx, pack6_length]
    have hu : u = _ := (runWords_verificationWords ht hh hlen).trans (pmvfyRule_of_variantConst hc)
    rw [hu, ← recorded_eq_ite]
    exact ⟨ht, rfl, rfl⟩

end Sys2Proof.Machine

namespace Sys2Proof.Machine

/-! Each rule by the causes of the table (R151 to R155) -/

/-- `t` is what the table of R151 makes of `s` under the two causes: a fault goes before a failure, and where
there is neither no flag is written. -/
def FollowsTheTable (s t : Block) : Option FaultCode → Option FailCode → Prop
  | some c, _ => t = s.raiseFault c
  | none, some c => t = s.failEntry c
  | none, none => t.fault = s.fault ∧ t.fail = s.fail ∧ t.err = s.err

/-- Units below 32 stand for the same number when they are read as quintets. -/
theorem value_toQuintets {us : List Byte} (h : ∀ u ∈ us, u.toNat < 32) (b : Nat) :
    value (toQuintets us) b = value us b := by
  have hdigits : (toQuintets us).map BitVec.toNat = us.map BitVec.toNat := by
    rw [toQuintets, List.map_map]
    exact List.map_congr_left fun u hu => (BitVec.toNat_setWidth 5 u).trans (Nat.mod_eq_of_lt (h u hu))
  rw [value_eq_ofDigits, value_eq_ofDigits, hdigits]

section table

variable (cfg : Config)

/-- RG5TO8 past its checks: the low `r` bits of the number are the leftover bits of the stream (R103). -/
theorem enterRegrouped_followsTheTable {s : Block} (hu : ∀ u ∈ s.ibuf, u.toNat < 32) :
    FollowsTheTable s (s.enterRegrouped (regroup5to8 cfg (toQuintets s.ibuf))) none (failCause cfg .rg5to8 s) := by
  have hbits : 5 * (toQuintets s.ibuf).length % 8 = leftoverBits s.ibuf.length :=
    congrArg leftoverBits (toQuintets_length s.ibuf)
  have hones : value s.ibuf 32 % 2 ^ leftoverBits s.ibuf.length ≠ 0 ↔
      (leftoverStream (toQuintets s.ibuf)).any id = true := by
    rw [← value_toQuintets hu, ← hbits, (value_div_mod_leftover _).2, bitsValue_ne_zero_iff]
  simp only [failCause]
  split
  · next hlimit =>
    rw [regroup5to8_of_limit_le (hbits.symm ▸ hlimit)]
    rfl
  · next hlimit =>
    have hfew := hbits.trans_lt (not_le.mp hlimit)
    split
    · next hpad =>
      rw [regroup5to8_of_leftover_one hfew (hones.mp hpad)]
      rfl
    · next hpad =>
      rw [regroup5to8_of_leftover_zero hfew (Bool.eq_false_of_not_eq_true fun h => hpad (hones.mpr h))]
      exact ⟨rfl, rfl, rfl⟩

/-- The rule of every command follows the table, with the causes met in the state it runs from. -/
theorem ruleOf_followsTheTable (i : Instr) (s : Block) :
    FollowsTheTable s (ruleOf cfg i s) (faultCause cfg i s) (failCause cfg i s) := by
  cases i with
  | nop | iclr | mvoi | pminit | pmstep | pmhrp | pmsum => exact ⟨rfl, rfl, rfl⟩
  | push u =>
    simp only [faultCause]
    split
    · next hfull => exact pushRule_of_full u hfull
    · next hroom =>
      rw [ruleOf, pushRule_of_ne u hroom]
      exact ⟨rfl, rfl, rfl⟩
  | b256to58 =>
    simp only [faultCause]
    split
    · next hlen => exact b256to58Rule_of_lt hlen
    · next hlen =>
      rw [ruleOf, b256to58Rule_of_le (not_lt.mp hlen)]
      exact ⟨rfl, rfl, rfl⟩
  | b58to256 =>
    simp only [faultCause]
    split
    · next hlen => exact b58to256Rule_of_lt hlen
    · next hlen =>
      split
      · next hunit => exact b58to256Rule_of_large_unit (not_lt.mp hlen) hunit
      · next hunit =>
        rw [ruleOf, b58to256Rule_of_digits (not_lt.mp hlen) (by simpa using hunit)]
        exact ⟨rfl, rfl, rfl⟩
  | rg8to5 =>
    simp only [faultCause]
    split
    · next hlen => exact rg8to5Rule_of_lt hlen
    · next hlen =>
      rw [ruleOf, rg8to5Rule_of_le (not_lt.mp hlen)]
      exact ⟨rfl, rfl, rfl⟩
  | rg5to8 =>
    simp only [faultCause]
    split
    · next hlen => exact rg5to8Rule_of_lt hlen
    · next hlen =>
      split
      · next hunit => exact rg5to8Rule_of_large_unit (not_lt.mp hlen) hunit
      · next hunit =>
        have hquintets : ∀ u ∈ s.ibuf, u.toNat < 32 := by simpa using hunit
        rw [ruleOf, rg5to8Rule_of_quintets (not_lt.mp hlen) hquintets]
        exact enterRegrouped_followsTheTable cfg hquintets
  | pmabs =>
    simp only [faultCause]
    split
    · next hunit => exact pmabsRule_of_large_unit hunit
    · next hunit =>
      rw [ruleOf, pmabsRule_of_quintets (by simpa using hunit)]
      exact ⟨rfl, rfl, rfl⟩
  | pmvfy =>
    simp only [failCause]
    split
    · next hneither =>
      obtain ⟨hne, hne'⟩ := hneither
      exact pmvfyRule_of_neither hne hne'
    · next hone =>
      obtain ⟨m, hm⟩ : ∃ m, s.chk = variantConst m := by
        obtain h | h := not_and_or.mp hone
        · exact ⟨.bech32, not_not.mp h⟩
        · exact ⟨.bech32m, not_not.mp h⟩
      rw [ruleOf, pmvfyRule_of_variantConst hm]
      exact ⟨rfl, rfl, rfl⟩

/-- The causes are met in the input and in CHK, which the clean start keeps. -/
theorem wordEffect_followsTheTable {w : Word} {i : Instr} {s : Block} (hi : decode w = .command i)
    (hf : s.fault = false) :
    FollowsTheTable s.startClean (wordEffect cfg w s) (faultCause cfg i s) (failCause cfg i s) := by
  rw [wordEffect_of_command cfg s hi, commandEffect_of_no_fault _ hf]
  exact ruleOf_followsTheTable cfg i s.startClean

end table

/-- Failure entry after a clean start, as one assignment for all codes (R153). -/
theorem startClean_failEntry (s : Block) (c : FailCode) : s.startClean.failEntry c =
    { s with fail := true, err := .fail c, obuf := if c = .eCsum then s.obuf else [],
             var := if c = .eCsum then .none else s.var } := by
  cases c <;> rfl

/-- Settles O56: every rule follows the table from the clean start. -/
theorem commandsFaultAndFailByTheTable : Obligations.CommandsFaultAndFailByTheTable := by
  intro cfg w s hf
  constructor
  · rintro ⟨why, hw⟩
    exact wordEffect_of_illegal hw cfg hf
  · intro i hi
    have htable := wordEffect_followsTheTable cfg hi hf
    refine ⟨fun c hfault => ?_, fun c hfault hfail => ?_, fun hfault hfail => ?_⟩
    · rw [hfault] at htable
      exact htable
    · rw [hfault, hfail] at htable
      exact htable.trans (startClean_failEntry s c)
    · rw [hfault, hfail] at htable
      obtain ⟨hfault', hfail', herr⟩ := htable
      exact ⟨hfault'.trans hf, hfail', herr⟩

/-! A faulted block (R158) -/

theorem step_fault_err_of_fault {s t : State} (hf : s.fault = true) (hst : step s = .next t)
    (hreset : s.pending.head? ≠ some .reset) : t.fault = true ∧ t.err = s.err := by
  obtain ⟨-, rfl⟩ | ⟨_, _, hp, -, ⟨w, -, rfl⟩ | ⟨_, _, -, -, rfl⟩ | ⟨_, -, rfl⟩ | ⟨rfl, rfl⟩⟩ := step_cases hst
  · exact ⟨hf, rfl⟩
  · rw [wordEffect_of_fault _ w hf]
    exact ⟨hf, rfl⟩
  · exact ⟨hf, rfl⟩
  · exact ⟨hf, rfl⟩
  · exact absurd (by rw [hp, List.head?_cons]) hreset

/-- Settles O57: a faulted block discards every word, and the other accesses write nothing of it. -/
theorem faultIsLeftByResetOnly : Obligations.FaultIsLeftByResetOnly := by
  refine fun s hf => ⟨fun i => exec_of_fault i hf, fun w rest hp => ?_, fun _ _ => step_of_read,
    fun _ => step_fault_err_of_fault hf⟩
  rw [step_of_cmdWrite hp, wordEffect_of_fault _ w hf]

/-! What a command leaves of FAIL, ERR and VAR (R154) -/

/-- Settles O58: the clean start overwrites FAIL and ERR, and a rule that enters no fault keeps what it does
not write. -/
theorem failureIsForgottenByTheNextCommand : Obligations.FailureIsForgottenByTheNextCommand := by
  intro i s f e hf
  constructor
  · rw [exec_of_no_fault i hf]
    exact exec_of_no_fault i hf
  · refine ⟨_, exec_of_no_fault i hf, fun hinit hvfy hfault => ?_⟩
    obtain ⟨c, hc⟩ | hkeep := ruleOf_cases .standard i s.startClean
    · have hraised := congrArg Block.fault hc
      exact absurd (hfault.symm.trans hraised) Bool.false_ne_true
    · refine hkeep.var (Bool.eq_false_of_not_eq_true fun hw => ?_)
      exact (eq_of_writesVar hw).elim hinit hvfy

/-! The empty input (R157) -/

section empty

variable {s : Block}

/-- No cause of a fault is met in an empty input, where a unit can be pushed at all. -/
theorem faultCause_of_nil {cfg : Config} (hcap : 0 < cfg.bufCap) (i : Instr) (h : s.ibuf = []) :
    faultCause cfg i s = none := by
  cases i <;> simp [faultCause, h, hcap.ne]

theorem FollowsTheTable.fault_eq {t : Block} {fail : Option FailCode} (h : FollowsTheTable s t none fail) :
    t.fault = s.fault := by
  cases fail with
  | none =>
    obtain ⟨hfault, -, -⟩ := h
    exact hfault
  | some c => exact (congrArg Block.fault h).trans (s.failEntry_fault c)

/-- The four conversions of an empty input are empty. -/
theorem ruleOf_conversion_of_nil {i : Instr} (hi : i = .b256to58 ∨ i = .b58to256 ∨ i = .rg8to5 ∨ i = .rg5to8)
    (h : s.ibuf = []) : ruleOf .standard i s = s.setObuf [] := by
  have hlen (n : Nat) : s.ilen ≤ n := by simp [Block.ilen_eq, h]
  have hunits (bound : Nat) : ∀ u ∈ s.ibuf, u.toNat < bound := by simp [h]
  obtain rfl | rfl | rfl | rfl := hi
  · rw [ruleOf, b256to58Rule_of_le (hlen _), h, convertBase_nil]
  · rw [ruleOf, b58to256Rule_of_digits (hlen _) (hunits _), h, convertBase_nil]
  · rw [ruleOf, rg8to5Rule_of_le (hlen _), h]
    rfl
  · rw [ruleOf, rg5to8Rule_of_quintets (hlen _) (hunits _), h]
    rfl

end empty

/-- Settles O59: an empty input meets no cause of a fault, has no digit or bit to convert, and expands to the
separator. -/
theorem emptyInputIsValid : Obligations.EmptyInputIsValid := by
  intro s hf hnil
  refine ⟨fun i => ⟨_, exec_of_no_fault i hf, ?_⟩,
    fun i hi => exec_of_rule_eq hf (ruleOf_conversion_of_nil (s := s.startClean) hi hnil), ?_, ?_⟩
  · have htable := ruleOf_followsTheTable .standard i s.startClean
    rw [faultCause_of_nil (s := s.startClean) (by decide) i hnil] at htable
    exact htable.fault_eq.trans hf
  · exact exec_of_rule_eq hf (pmabsRule_of_ibuf_eq (s := s.startClean) (x := []) hnil)
  · have hrule : ruleOf .standard .pmhrp s.startClean = s.startClean.setChk (pmStep .standard s.chk 0) := by
      rw [ruleOf, pmhrpRule, Block.startClean_ibuf, hnil]
      rfl
    exact exec_of_rule_eq hf hrule

end Sys2Proof.Machine

namespace Sys2Proof.Machine

/-! Every step answers (R170, R197) -/

theorem step_of_idle {s : State} (h : s.pending = []) : step s = .next s := by
  rw [step, serve, h]

theorem hostWf_of_cons {s : State} {e : HostEvent} {rest : List HostEvent} (h : s.pending = e :: rest) :
    s.hostWf = (e.wf && rest.all HostEvent.wf) := by
  rw [State.hostWf, h, List.all_cons]

/-- A register write answers, and the host keeps the accesses to come (R37). -/
theorem regWrite_answers (off : Nat) (v : Word) (s : State) :
    ∃ t, regWrite off v s = .next t ∧ t.pending = s.pending := by
  by_cases hoff : off = offCmd
  · rw [regWrite, if_pos hoff, writeCmd_eq]
    exact ⟨_, rfl, s.onBlock_pending _⟩
  · rw [regWrite, if_neg hoff]
    exact ⟨s, rfl, rfl⟩

/-- An event the port carries is answered, and the host keeps the accesses to come (R196). -/
theorem respond_answers {e : HostEvent} (h : e.wf = true) (s : State) :
    ∃ t, respond e s = .next t ∧ t.pending = s.pending := by
  cases e with
  | write width off v =>
    rw [respond, atPort_of_wf _ h]
    exact regWrite_answers off v s
  | read width off =>
    rw [respond, atPort_of_wf _ h]
    exact ⟨_, rfl, s.pushAnswer_pending _⟩
  | reset => exact ⟨_, rfl, s.afterReset_pending⟩

/-- Settles O11: an idle block holds its state, and the port answers the first of the accesses it carries. -/
theorem everyStepAnswers : Obligations.EveryStepAnswers := by
  intro s hwf
  cases hp : s.pending with
  | nil => exact ⟨s, step_of_idle hp, hp, hwf, fun _ => rfl⟩
  | cons e rest =>
    rw [hostWf_of_cons hp, Bool.and_eq_true] at hwf
    obtain ⟨he, hrest⟩ := hwf
    obtain ⟨t, ht, hpending⟩ := respond_answers he { s with pending := rest }
    refine ⟨t, (step_eq_respond hp).trans ht, hpending, ?_, fun hnil => by cases hnil⟩
    rw [State.hostWf, hpending]
    exact hrest

/-! The reset state and the way into it (R180, R181) -/

/-- In the reset state every register but CHK reads 0: STATUS has no flag set, and the buffers are empty. -/
theorem regRead_reset_of_ne_chk (cfg : Config) {off : Nat} (h : off ≠ offChk) :
    regRead cfg .reset off = 0 := by
  have hstatus : Block.reset.status = 0 := by decide
  have hilen : BitVec.ofNat 32 Block.reset.ilen = 0 := rfl
  have holen : BitVec.ofNat 32 Block.reset.olen = 0 := rfl
  have hibuf (i : Nat) : windowRead Block.reset.ibuf i = 0 := rfl
  have hobuf (i : Nat) : windowRead Block.reset.obuf i = 0 := rfl
  simp only [regRead, hstatus, hilen, holen, if_neg h, hibuf, hobuf, ite_self]

/-- Settles O1: the elements by their values, the reads register by register, and the commands by the validity
of the empty input. -/
theorem resetLeavesTheResetState : Obligations.ResetLeavesTheResetState := by
  obtain ⟨haccepts, -⟩ := emptyInputIsValid State.reset rfl rfl
  exact ⟨rfl, rfl, rfl, rfl, rfl, rfl, rfl, rfl, rfl, by decide,
    fun _ => regRead_reset_of_ne_chk .standard, haccepts⟩

/-- Settles O60: the answer to the reset event does not look at the block. -/
theorem resetWinsFromAnyState : Obligations.ResetWinsFromAnyState :=
  fun _ _ => step_eq_respond

end Sys2Proof.Machine
